-- ==== Sys2Proof/Word.lean ====
section
/-! DEFINITION. The two word types of the Machine (spec 00_scope.md R7, R9, R10): a byte and a
16-bit address. Every value of either type is an unsigned number reduced modulo its size. -/

namespace Sys2Proof

/-- An 8-bit value: a register, a memory byte, an instruction byte (R7 `XLEN`, byte size). -/
abbrev Byte := BitVec 8

/-- A 16-bit value: `pc`, `sp`, an effective address (R7 `PCLEN`, `SPLEN`). -/
abbrev Addr := BitVec 16

/-- `MEMSIZE` of R7: the number of bytes of memory, addresses `0` to `65535`. -/
abbrev memSize : Nat := 65536

/-- The longest instruction, in bytes (R60, R78). -/
abbrev maxLength : Nat := 8

end Sys2Proof
end

