-- ==== Sys2Proof/Syntax.lean ====
section
/-! DEFINITION. The instruction set as syntax (spec 30_encoding.md R61, R64 to R72): the 21
mnemonics grouped by byte format, the operands, the ONE inductive `Instr` with one constructor per
row of spec/opcode_table.json, and the halt cause labels of 60_exceptions.md R202. -/

namespace Sys2Proof

/-- The index `0..7` of a general-purpose register (10_state.md R21, R22). -/
abbrev Reg := Fin 8

/-- A shift count `0..7` (30_encoding.md R68). -/
abbrev Count := Fin 8

/-- A memory operand, by its submode (30_encoding.md R67). -/
inductive MemRef where
  /-- Submode 0, absolute: a 16-bit address. -/
  | abs (address : Addr)
  /-- Submode 1, register-indirect: the address is the register, zero-extended. -/
  | ind (base : Reg)
  /-- Submode 2, register+offset: the offset byte is a two's-complement number. -/
  | off (base : Reg) (offset : Byte)
deriving DecidableEq, Repr

/-- An operand with its kind (30_encoding.md R64 to R67). -/
inductive Operand where
  | reg (r : Reg)
  | imm (value : Byte)
  | mem (m : MemRef)
deriving DecidableEq, Repr

/-- The operand-kind tags of the mode byte (R64: register 0, immediate 1, memory 2). -/
inductive Tag where
  | reg
  | imm
  | mem
deriving DecidableEq, Repr

/-- Format Z of R61: the opcode byte alone. -/
inductive ZOp where
  | hlt
  | ret
deriving DecidableEq, Repr

/-- Format J of R61: the opcode and a 16-bit absolute address. -/
inductive JOp where
  | jmp
  | jz
  | jnz
  | call
deriving DecidableEq, Repr

/-- Format U of R61: the opcode, the mode byte and one operand. -/
inductive UOp where
  | inc
  | dec
  | not
  | rnd
  | push
  | pop
deriving DecidableEq, Repr

/-- Format US of R61: as format U, then a shift-count byte. -/
inductive USOp where
  | shl
  | shr
deriving DecidableEq, Repr

/-- Format B of R61: the opcode, the mode byte and two operands. -/
inductive BOp where
  | mov
  | add
  | sub
  | cmp
  | and
  | or
  | xor
deriving DecidableEq, Repr

/-- A mnemonic together with its format; the set is closed (R71). -/
inductive Mnemonic where
  | z (o : ZOp)
  | j (o : JOp)
  | u (o : UOp)
  | us (o : USOp)
  | b (o : BOp)
deriving DecidableEq, Repr

/-- The opcode map as a parameter (`OPCODE` of R8): the opcode byte of each mnemonic. -/
abbrev OpcodeMap := Mnemonic → Byte

/-- One decoded instruction: one constructor per row of spec/opcode_table.json (R70). Operand 0
(`p`, the destination where one is written) comes first, operand 1 (`q`, the source) second. -/
inductive Instr where
  | hlt
  | ret
  | mov (p q : Operand)
  | add (p q : Operand)
  | sub (p q : Operand)
  | cmp (p q : Operand)
  | and (p q : Operand)
  | or (p q : Operand)
  | xor (p q : Operand)
  | inc (p : Operand)
  | dec (p : Operand)
  | not (p : Operand)
  | shl (p : Operand) (count : Count)
  | shr (p : Operand) (count : Count)
  | rnd (p : Operand)
  | push (p : Operand)
  | pop (p : Operand)
  | jmp (target : Addr)
  | jz (target : Addr)
  | jnz (target : Addr)
  | call (target : Addr)
deriving DecidableEq, Repr

/-- Why a step halted (60_exceptions.md R202). A label for the reader: the Machine stores none of
them, and no field of `State` holds one. -/
inductive HaltCause where
  | hlt
  | unknownOpcode
  | fetchPastEnd
  | badMode
  | immDest
  | badReg
  | badSubmode
  | badCount
deriving DecidableEq, Repr

end Sys2Proof
end

