-- ==== Sys2Proof/Config.lean ====
section
/-! DEFINITION. The implementation parameters of spec 00_scope.md R8, which REV leaves open, as one
structure `Config` that the step, the Encoder and the Decoder take as an argument; the values this
machine is built with (`Config.machine`, the defaults of R8); and the one free value, the bytes of
the entropy source. -/

namespace Sys2Proof

/-- `PC_WRAP` of R8: what a step does whose instruction ends exactly at `0xFFFF` and falls through
(40_step_and_operands.md R94). -/
inductive PcWrap where
  /-- `pc` becomes 0 and execution continues. -/
  | wrap
  /-- The model faults at that step. -/
  | fault
deriving DecidableEq, Repr

/-- How the model answers a step at an encoding for which REV says nothing (causes `BAD_MODE`,
`IMM_DEST`, `BAD_REG`, `BAD_SUBMODE`, `BAD_COUNT`; 93_implementation_defined.md U2 to U6). -/
inductive NonCanonical where
  /-- The halt of 30_encoding.md R81: a next state. -/
  | halt
  /-- The cautious treatment of U2 to U6: a fault and no state. -/
  | fault
deriving DecidableEq, Repr

/-- The parameters of R8. `ENTROPY` is apart (`Config.entropy`), and `ORIGIN` is an argument of the
Encoder's `assemble`. -/
structure Config where
  /-- `OPCODE`: the opcode byte of each mnemonic; R70 asks only that it be injective. -/
  opcode : OpcodeMap
  /-- `SP_RESET`: the value of `sp` after `reset()`. -/
  spReset : Addr
  /-- `PC_WRAP`. -/
  pcWrap : PcWrap
  /-- The model's own switch between the two treatments of U2 to U6. -/
  nonCanonical : NonCanonical
  /-- `REGNAME`: the name of each register in listings and in assembly text. -/
  regName : Reg → List Char
  /-- Further names accepted in assembly text (48_assembler.md R168). -/
  regAlias : List (List Char × Reg)

/-- R70, the default of `OPCODE`: the high nibble is the format class (log entry 1, unsafe for claims
about byte values). -/
def Config.defaultOpcode : OpcodeMap
  | .z .hlt => 0x00
  | .z .ret => 0x01
  | .b .mov => 0x10
  | .b .add => 0x11
  | .b .sub => 0x12
  | .b .cmp => 0x13
  | .b .and => 0x14
  | .b .or => 0x15
  | .b .xor => 0x16
  | .u .inc => 0x20
  | .u .dec => 0x21
  | .u .not => 0x22
  | .us .shl => 0x23
  | .us .shr => 0x24
  | .u .rnd => 0x25
  | .u .push => 0x26
  | .u .pop => 0x27
  | .j .jmp => 0x30
  | .j .jz => 0x31
  | .j .jnz => 0x32
  | .j .call => 0x33

/-- 48_assembler.md R168, the default of `REGNAME`. -/
def Config.defaultRegName : Reg → List Char
  | 0 => ['E', 'A', 'X']
  | 1 => ['E', 'B', 'X']
  | 2 => ['E', 'C', 'X']
  | 3 => ['E', 'D', 'X']
  | 4 => ['R', '4']
  | 5 => ['R', '5']
  | 6 => ['R', '6']
  | 7 => ['R', '7']

/-- R168: `R0` to `R3` are accepted for the indices 0 to 3. -/
def Config.defaultRegAlias : List (List Char × Reg) :=
  [(['R', '0'], 0), (['R', '1'], 1), (['R', '2'], 2), (['R', '3'], 3)]

/-- This machine: the defaults of R8, and the halt of R81 for every non-canonical encoding. -/
def Config.machine : Config where
  opcode := Config.defaultOpcode
  spReset := 0xFFFF
  pcWrap := .wrap
  nonCanonical := .halt
  regName := Config.defaultRegName
  regAlias := Config.defaultRegAlias

/-- `ENTROPY` of R8 and 44_random.md R136: the byte that the `n`-th RND instruction executed since
the Machine was created receives. A FREE VALUE under no law: it has no body, so whatever is proved
holds for every sequence of bytes (log entry 6, safe). -/
opaque Config.entropy : Nat → Byte

end Sys2Proof
end

