-- ==== Sys2Proof/Machine/State.lean ====
section
/-! DEFINITION. The whole state of one Machine as plain data (spec 10_state.md R20), the reasons a
step can stop, and the state after reset (R34). -/

namespace Sys2Proof.Machine

/-- The four flags (R27, R29): four separate bits, with no packed form. -/
structure Flags where
  /-- `Z` -/
  zero : Bool
  /-- `S` -/
  sign : Bool
  /-- `C`, reserved, constantly 0 -/
  carry : Bool
  /-- `O`, reserved, constantly 0 -/
  overflow : Bool
deriving DecidableEq, Repr

/-- Memory (R32, R40) as the list of its non-zero bytes by rising address. `Memory.wf` of
Machine/Ops.lean is the canonical form. -/
abbrev Memory := List Host.Cell

/-- R20. `draws` is the model's own field and no state of the Machine: how many RND instructions
have been executed since the Machine was created (44_random.md R136), which says the entropy byte
the next one receives (DESIGN CHOICE, log entry 6; `reset` gives it 0). -/
structure State where
  /-- `x[0]` to `x[7]` (R21). -/
  regs : Vector Byte 8
  /-- The stack pointer (R24). -/
  sp : Addr
  /-- The instruction pointer (R26). -/
  pc : Addr
  /-- `Z`, `S`, `C`, `O` (R27). -/
  flags : Flags
  /-- The running state (R30). -/
  running : Bool
  /-- `mem[0]` to `mem[65535]` (R32). -/
  mem : Memory
  /-- `prog_end`, the program end marker (R31). -/
  progEnd : Nat
  /-- The model's own counter of executed RND instructions. -/
  draws : Nat
deriving DecidableEq, Repr

/-- What stops a step with a fault. Under `Config.machine` no step does: both constructors are for
the cautious settings of a `Config`. -/
inductive Fault where
  /-- Raised by `stepUnder` when `PC_WRAP` is `fault`: the instruction ends exactly at `0xFFFF` and
  does not transfer control (40_step_and_operands.md R94, U8). Safe: the Machine goes on. -/
  | pcPastEnd
  /-- Raised by `stepUnder` when `nonCanonical` is `fault`: one of the five causes for which REV says
  nothing (U2 to U6). Safe: the Machine halts there (R81). -/
  | nonCanonical (cause : HaltCause)
deriving DecidableEq, Repr

/-- What the model declines. -/
inductive Refusal where
  /-- Raised by an arm of `exec` that has no meaning yet. Safe. No arm does. -/
  | notModelled (mnemonic : String)
  /-- Raised by `loadProgram` outside the domain of 70_reset_and_hazards.md R221 (a base above 65535
  or more than 65536 bytes; U16). Safe: the spec gives such a load no meaning. -/
  | loadOutOfDomain
deriving DecidableEq, Repr

/-- R27, R34: all four flags 0. -/
def Flags.reset : Flags := { zero := false, sign := false, carry := false, overflow := false }

/-- R34 with `SP_RESET` from the configuration. All values but memory's are the spec's decisions D9
and D10 (log entry 4, unsafe). -/
def State.resetUnder (c : Config) : State where
  regs := Vector.replicate 8 0
  sp := c.spReset
  pc := 0
  flags := Flags.reset
  running := true
  mem := []
  progEnd := 0
  draws := 0

/-- The Machine right after reset (R34), `SP_RESET` at its default. -/
def State.reset : State := State.resetUnder Config.machine

end Sys2Proof.Machine
end

