-- ==== Sys2Proof/Machine/Flags.lean ====
section
/-! DEFINITION. The one flag computation of the instruction set (spec 40_step_and_operands.md R104). -/

namespace Sys2Proof.Machine

/-- `SetZS(r)`: `Z` is 1 iff the 8-bit result is 0, `S` is its bit 7; `C` and `O` are not written.
The old `Z` and `S` play no part (10_state.md R28). -/
def State.setZS (s : State) (r : Byte) : State :=
  { s with flags := { s.flags with zero := r == 0, sign := r.getLsbD 7 } }

end Sys2Proof.Machine
end

