-- ==== Sys2Proof/WellFormed.lean ====
section
/-! DEFINITION. Which instructions are canonical (spec 30_encoding.md R72, R80): an operand that the
instruction writes is not an immediate. Register indices, submodes and shift counts are in range by
their types. -/

namespace Sys2Proof

/-- R72: a written operand is a register or a memory operand. -/
def Operand.writable : Operand → Bool
  | .reg _ => true
  | .imm _ => false
  | .mem _ => true

/-- R72 as a check on an instruction: CMP and PUSH only read operand 0 and take an immediate there;
every other instruction with an operand 0 writes it. -/
def Instr.wellFormed : Instr → Bool
  | .hlt => true
  | .ret => true
  | .mov p _ => p.writable
  | .add p _ => p.writable
  | .sub p _ => p.writable
  | .cmp _ _ => true
  | .and p _ => p.writable
  | .or p _ => p.writable
  | .xor p _ => p.writable
  | .inc p => p.writable
  | .dec p => p.writable
  | .not p => p.writable
  | .shl p _ => p.writable
  | .shr p _ => p.writable
  | .rnd p => p.writable
  | .push _ => true
  | .pop p => p.writable
  | .jmp _ => true
  | .jz _ => true
  | .jnz _ => true
  | .call _ => true

end Sys2Proof
end

