-- ==== Sys2Proof/Decode.lean ====
section
/-! DEFINITION. The Encoding Contract (spec 30_encoding.md): `decodeWith`, the shared decode function
of R85, total on any list of bytes and rejecting by cause label; then `encodeWith`, the encode
function of R86. Both take the opcode map as an argument (R70). The byte list given to the decoder
is what lies between the opcode byte and the end of memory: a list that runs out is `FETCH_PAST_END`. -/

namespace Sys2Proof

/-! ## Tables shared by decoder, encoder and length rule -/

/-- The 21 mnemonics of R70. -/
def Mnemonic.all : List Mnemonic :=
  [.z .hlt, .z .ret,
   .b .mov, .b .add, .b .sub, .b .cmp, .b .and, .b .or, .b .xor,
   .u .inc, .u .dec, .u .not, .us .shl, .us .shr, .u .rnd, .u .push, .u .pop,
   .j .jmp, .j .jz, .j .jnz, .j .call]

/-- R85 `op in OPCODE`: the mnemonic of an opcode byte, if it has one. -/
def lookupOpcode (t : OpcodeMap) (op : Byte) : Option Mnemonic :=
  Mnemonic.all.find? (fun m => t m == op)

def instrZ : ZOp → Instr
  | .hlt => .hlt
  | .ret => .ret

def instrJ (target : Addr) : JOp → Instr
  | .jmp => .jmp target
  | .jz => .jz target
  | .jnz => .jnz target
  | .call => .call target

def instrU (p : Operand) : UOp → Instr
  | .inc => .inc p
  | .dec => .dec p
  | .not => .not p
  | .rnd => .rnd p
  | .push => .push p
  | .pop => .pop p

def instrUS (p : Operand) (count : Count) : USOp → Instr
  | .shl => .shl p count
  | .shr => .shr p count

def instrB (p q : Operand) : BOp → Instr
  | .mov => .mov p q
  | .add => .add p q
  | .sub => .sub p q
  | .cmp => .cmp p q
  | .and => .and p q
  | .or => .or p q
  | .xor => .xor p q

/-- R72: which one-operand instructions write operand 0 (all but PUSH). -/
def UOp.writes : UOp → Bool
  | .inc => true
  | .dec => true
  | .not => true
  | .rnd => true
  | .push => false
  | .pop => true

/-- R72: which two-operand instructions write operand 0 (all but CMP). -/
def BOp.writes : BOp → Bool
  | .mov => true
  | .add => true
  | .sub => true
  | .cmp => false
  | .and => true
  | .or => true
  | .xor => true

/-- The mnemonic of an instruction. -/
def Instr.mnemonic : Instr → Mnemonic
  | .hlt => .z .hlt
  | .ret => .z .ret
  | .mov _ _ => .b .mov
  | .add _ _ => .b .add
  | .sub _ _ => .b .sub
  | .cmp _ _ => .b .cmp
  | .and _ _ => .b .and
  | .or _ _ => .b .or
  | .xor _ _ => .b .xor
  | .inc _ => .u .inc
  | .dec _ => .u .dec
  | .not _ => .u .not
  | .shl _ _ => .us .shl
  | .shr _ _ => .us .shr
  | .rnd _ => .u .rnd
  | .push _ => .u .push
  | .pop _ => .u .pop
  | .jmp _ => .j .jmp
  | .jz _ => .j .jz
  | .jnz _ => .j .jnz
  | .call _ => .j .call

/-! ## Reading bytes from left to right (R79) -/

/-- `Fetch()` of R85: the next byte, or `FETCH_PAST_END` when none is left below address 65536. -/
def fetchByte : List Byte → Except HaltCause (Byte × List Byte)
  | [] => .error .fetchPastEnd
  | b :: bs => .ok (b, bs)

/-- A register index byte (R65); `BAD_REG` above 7. -/
def regOfByte (b : Byte) : Except HaltCause Reg :=
  if h : b.toNat < 8 then .ok ⟨b.toNat, h⟩ else .error .badReg

/-- A shift-count byte (R68); `BAD_COUNT` above 7. -/
def countOfByte (b : Byte) : Except HaltCause Count :=
  if h : b.toNat < 8 then .ok ⟨b.toNat, h⟩ else .error .badCount

/-- R44: little-endian, `{hi, lo}`. -/
def addrOfBytes (lo hi : Byte) : Addr := hi ++ lo

/-- A 16-bit address field (R69 and submode 0 of R67). -/
def readAddr (bs : List Byte) : Except HaltCause (Addr × List Byte) := do
  let (lo, bs) ← fetchByte bs
  let (hi, bs) ← fetchByte bs
  return (addrOfBytes lo hi, bs)

/-- A register index byte. -/
def readReg (bs : List Byte) : Except HaltCause (Reg × List Byte) := do
  let (b, bs) ← fetchByte bs
  let r ← regOfByte b
  return (r, bs)

/-- The `idx off` pair of submode 2. R85 fetches both bytes before it checks `idx`
(DEDUCED, log entry 8: only the label of a halt depends on it). -/
def readRegOffset (bs : List Byte) : Except HaltCause (MemRef × List Byte) := do
  let (b, bs) ← fetchByte bs
  let (off, bs) ← fetchByte bs
  let r ← regOfByte b
  return (.off r off, bs)

/-- A memory descriptor (R67): the submode byte, then what the submode asks for. -/
def readMemRef (bs : List Byte) : Except HaltCause (MemRef × List Byte) := do
  let (sub, bs) ← fetchByte bs
  if sub = 0 then do
    let (a, bs) ← readAddr bs
    return (.abs a, bs)
  else if sub = 1 then do
    let (r, bs) ← readReg bs
    return (.ind r, bs)
  else if sub = 2 then readRegOffset bs
  else .error .badSubmode

/-- The descriptor of an operand of the given kind (R65 to R67). -/
def readOperand (tag : Tag) (bs : List Byte) : Except HaltCause (Operand × List Byte) :=
  match tag with
  | .reg => do
    let (r, bs) ← readReg bs
    return (.reg r, bs)
  | .imm => do
    let (v, bs) ← fetchByte bs
    return (.imm v, bs)
  | .mem => do
    let (m, bs) ← readMemRef bs
    return (.mem m, bs)

/-- A tag pair of the mode byte (R64); the value 3 names no kind. -/
def tagOfBits (b : BitVec 2) : Except HaltCause Tag :=
  if b = 0 then .ok .reg
  else if b = 1 then .ok .imm
  else if b = 2 then .ok .mem
  else .error .badMode

/-- The mode byte of formats U and US (R63): bits 7:2 are 0, bits 1:0 are `tag0`. -/
def tagOfMode (mode : Byte) : Except HaltCause Tag :=
  if mode.extractLsb' 2 6 = 0 then tagOfBits (mode.extractLsb' 0 2) else .error .badMode

/-- The mode byte of format B (R63): bits 7:4 are 0, bits 3:2 are `tag1`, bits 1:0 are `tag0`. -/
def tagsOfMode (mode : Byte) : Except HaltCause (Tag × Tag) :=
  if mode.extractLsb' 4 4 = 0 then do
    let tag0 ← tagOfBits (mode.extractLsb' 0 2)
    let tag1 ← tagOfBits (mode.extractLsb' 2 2)
    return (tag0, tag1)
  else .error .badMode

/-- R81 `IMM_DEST`: an immediate tag on an operand the instruction writes. -/
def checkDest (writes : Bool) (tag0 : Tag) : Except HaltCause Unit :=
  if writes && tag0 == .imm then .error .immDest else .ok ()

/-! ## The decode function -/

/-- Format U after its opcode byte. -/
def decodeU (o : UOp) (bs : List Byte) : Except HaltCause (Instr × List Byte) := do
  let (mode, bs) ← fetchByte bs
  let tag0 ← tagOfMode mode
  checkDest o.writes tag0
  let (p, bs) ← readOperand tag0 bs
  return (instrU p o, bs)

/-- Format US after its opcode byte: both of its instructions write operand 0. -/
def decodeUS (o : USOp) (bs : List Byte) : Except HaltCause (Instr × List Byte) := do
  let (mode, bs) ← fetchByte bs
  let tag0 ← tagOfMode mode
  checkDest true tag0
  let (p, bs) ← readOperand tag0 bs
  let (b, bs) ← fetchByte bs
  let count ← countOfByte b
  return (instrUS p count o, bs)

/-- Format B after its opcode byte. -/
def decodeB (o : BOp) (bs : List Byte) : Except HaltCause (Instr × List Byte) := do
  let (mode, bs) ← fetchByte bs
  let (tag0, tag1) ← tagsOfMode mode
  checkDest o.writes tag0
  let (p, bs) ← readOperand tag0 bs
  let (q, bs) ← readOperand tag1 bs
  return (instrB p q o, bs)

/-- Format J after its opcode byte. -/
def decodeJ (o : JOp) (bs : List Byte) : Except HaltCause (Instr × List Byte) := do
  let (a, bs) ← readAddr bs
  return (instrJ a o, bs)

/-- The bytes after the opcode byte, read by the format of the mnemonic (R61, R95). -/
def decodeBody (m : Mnemonic) (bs : List Byte) : Except HaltCause (Instr × List Byte) :=
  match m with
  | .z o => .ok (instrZ o, bs)
  | .j o => decodeJ o bs
  | .u o => decodeU o bs
  | .us o => decodeUS o bs
  | .b o => decodeB o bs

/-- One instruction and the bytes after it. -/
def decodeRest (t : OpcodeMap) (bs : List Byte) : Except HaltCause (Instr × List Byte) := do
  let (op, bs) ← fetchByte bs
  match lookupOpcode t op with
  | none => .error .unknownOpcode
  | some m => decodeBody m bs

/-- R85 `Decode`: the instruction and its length `L` in bytes, or the cause of the first offending
byte in fetch order. -/
def decodeWith (t : OpcodeMap) (bs : List Byte) : Except HaltCause (Instr × Nat) := do
  let (i, rest) ← decodeRest t bs
  return (i, bs.length - rest.length)

/-- `Decode` under this machine's opcode map. -/
def decode (bs : List Byte) : Except HaltCause (Instr × Nat) :=
  decodeWith Config.machine.opcode bs

/-! ## The encode function (R86) and the length rule (R78) -/

/-- The tag of an operand's kind. -/
def Operand.tag : Operand → Tag
  | .reg _ => .reg
  | .imm _ => .imm
  | .mem _ => .mem

/-- R64: the two bits of a tag. -/
def tagBits : Tag → BitVec 2
  | .reg => 0
  | .imm => 1
  | .mem => 2

/-- R63: `mode = tag0` in formats U and US. -/
def modeU (p : Operand) : Byte := (tagBits p.tag).setWidth 8

/-- R63: `mode = tag0 + 4 * tag1` in format B. -/
def modeB (p q : Operand) : Byte :=
  (tagBits p.tag).setWidth 8 + 4 * (tagBits q.tag).setWidth 8

/-- The byte that names a register. -/
def regByte (r : Reg) : Byte := BitVec.ofNat 8 r.val

/-- R44: the two bytes of an address field, low byte first. -/
def addrBytes (a : Addr) : List Byte := [a.extractLsb' 0 8, a.extractLsb' 8 8]

/-- The descriptor bytes of a memory operand (R67). -/
def memBytes : MemRef → List Byte
  | .abs a => 0 :: addrBytes a
  | .ind r => [1, regByte r]
  | .off r off => [2, regByte r, off]

/-- The descriptor bytes of an operand (`EncOperand` of R86). -/
def operandBytes : Operand → List Byte
  | .reg r => [regByte r]
  | .imm v => [v]
  | .mem m => memBytes m

def encodeZ (t : OpcodeMap) (o : ZOp) : List Byte := [t (.z o)]

def encodeJ (t : OpcodeMap) (o : JOp) (a : Addr) : List Byte := t (.j o) :: addrBytes a

def encodeU (t : OpcodeMap) (o : UOp) (p : Operand) : List Byte :=
  t (.u o) :: modeU p :: operandBytes p

def encodeUS (t : OpcodeMap) (o : USOp) (p : Operand) (count : Count) : List Byte :=
  t (.us o) :: modeU p :: (operandBytes p ++ [BitVec.ofNat 8 count.val])

def encodeB (t : OpcodeMap) (o : BOp) (p q : Operand) : List Byte :=
  t (.b o) :: modeB p q :: (operandBytes p ++ operandBytes q)

/-- R86 `Encode`. -/
def encodeWith (t : OpcodeMap) : Instr → List Byte
  | .hlt => encodeZ t .hlt
  | .ret => encodeZ t .ret
  | .mov p q => encodeB t .mov p q
  | .add p q => encodeB t .add p q
  | .sub p q => encodeB t .sub p q
  | .cmp p q => encodeB t .cmp p q
  | .and p q => encodeB t .and p q
  | .or p q => encodeB t .or p q
  | .xor p q => encodeB t .xor p q
  | .inc p => encodeU t .inc p
  | .dec p => encodeU t .dec p
  | .not p => encodeU t .not p
  | .shl p count => encodeUS t .shl p count
  | .shr p count => encodeUS t .shr p count
  | .rnd p => encodeU t .rnd p
  | .push p => encodeU t .push p
  | .pop p => encodeU t .pop p
  | .jmp a => encodeJ t .jmp a
  | .jz a => encodeJ t .jz a
  | .jnz a => encodeJ t .jnz a
  | .call a => encodeJ t .call a

/-- `Encode` under this machine's opcode map. -/
def encode (i : Instr) : List Byte := encodeWith Config.machine.opcode i

/-- R78: the length of an operand's descriptor. -/
def Operand.length : Operand → Nat
  | .reg _ => 1
  | .imm _ => 1
  | .mem (.abs _) => 3
  | .mem (.ind _) => 2
  | .mem (.off _ _) => 3

/-- R78: `L` of formats U, US and B. -/
def lengthU (p : Operand) : Nat := 2 + p.length
def lengthUS (p : Operand) : Nat := 3 + p.length
def lengthB (p q : Operand) : Nat := 2 + p.length + q.length

/-- R78: the length `L` of an instruction. -/
def Instr.length : Instr → Nat
  | .hlt => 1
  | .ret => 1
  | .mov p q => lengthB p q
  | .add p q => lengthB p q
  | .sub p q => lengthB p q
  | .cmp p q => lengthB p q
  | .and p q => lengthB p q
  | .or p q => lengthB p q
  | .xor p q => lengthB p q
  | .inc p => lengthU p
  | .dec p => lengthU p
  | .not p => lengthU p
  | .shl p _ => lengthUS p
  | .shr p _ => lengthUS p
  | .rnd p => lengthU p
  | .push p => lengthU p
  | .pop p => lengthU p
  | .jmp _ => 3
  | .jz _ => 3
  | .jnz _ => 3
  | .call _ => 3

/-! ## The opcode table's words -/

/-- The eight bytes of a table word as memory holds them: the first byte is bits 7..0 of `w`, and
every bit from `nbits` up is 0. -/
def wordBytes (nbits w : Nat) : List Byte :=
  (List.range maxLength).map (fun k => BitVec.ofNat 8 ((w % 2 ^ nbits) / 256 ^ k))

/-- The instruction this machine's decoder reads from a word of spec/opcode_table.json. -/
def decodeTableWord (nbits w : Nat) : Option Instr :=
  match decode (wordBytes nbits w) with
  | .ok (i, _) => some i
  | .error _ => none

end Sys2Proof
end

