-- ==== Sys2Proof/Machine/Ops.lean ====
section
/-! DEFINITION. The named operations over memory, registers, stack and instruction pointer that the
meanings share (spec 00_scope.md R11), instruction fetch, and the one terminal event, the halt
(60_exceptions.md R201). There is no return from a halt (R205): only the host's `reset()`. -/

namespace Sys2Proof.Machine

/-! ## Memory (20_memory.md) -/

/-- The byte at an address; a byte that is not listed is 0 (R34: "Reset zeroes it entirely"; log
entry 5). -/
def Memory.read : Memory → Nat → Byte
  | [], _ => 0
  | (b, v) :: m, a => if a = b then v else Memory.read m a

/-- Store one byte (R48: exactly that byte changes). A zero byte is stored by removing its entry, so
that the list stays in canonical form. -/
def Memory.write : Memory → Nat → Byte → Memory
  | [], a, v => if v = 0 then [] else [(a, v)]
  | (b, w) :: m, a, v =>
    if a < b then (if v = 0 then (b, w) :: m else (a, v) :: (b, w) :: m)
    else if a = b then (if v = 0 then m else (a, v) :: m)
    else (b, w) :: Memory.write m a v

/-- The canonical form: strictly rising addresses below 65536, and no byte equal to what an unlisted
address reads as. -/
abbrev Memory.wf (m : Memory) : Prop :=
  m.Pairwise (fun c d => c.1 < d.1) ∧ ∀ c ∈ m, c.1 < memSize ∧ c.2 ≠ 0

/-- Store bytes at consecutive addresses from `a`, the address reduced modulo 65536 (R42, R221). -/
def Memory.writeBytes : Memory → Nat → List Byte → Memory
  | m, _, [] => m
  | m, a, b :: bs => Memory.writeBytes (m.write (a % memSize) b) (a + 1) bs

/-- `MemRead(addr, 1)` of R11. -/
def State.readMem (s : State) (a : Addr) : Byte := s.mem.read a.toNat

/-- `MemWrite(addr, 1, v)` of R11. -/
def State.writeMem (s : State) (a : Addr) (v : Byte) : State :=
  { s with mem := s.mem.write a.toNat v }

/-! ## Registers (10_state.md R21: no register is hardwired, banked or aliased) -/

/-- `x[r]`. -/
def State.getReg (s : State) (r : Reg) : Byte := s.regs[r]

/-- `x[r] <- v`. -/
def State.setReg (s : State) (r : Reg) (v : Byte) : State :=
  { s with regs := s.regs.set r v }

/-! ## Stack (R25) -/

/-- Pre-decrement `sp`, then write the byte there. -/
def State.pushByte (s : State) (v : Byte) : State :=
  State.writeMem { s with sp := s.sp - 1 } (s.sp - 1) v

/-- The byte a pop reads: the one at `sp` before the increment. -/
def State.topByte (s : State) : Byte := s.readMem s.sp

/-- The post-increment of a pop; the popped byte stays in memory. -/
def State.dropByte (s : State) : State := { s with sp := s.sp + 1 }

/-! ## Instruction pointer -/

/-- `pc <- next`, `next = (a + L) mod 65536` (R12, R94). -/
def State.advance (s : State) (len : Nat) : State :=
  { s with pc := s.pc + BitVec.ofNat 16 len }

/-- `pc <- target`. -/
def State.jumpTo (s : State) (target : Addr) : State := { s with pc := target }

/-! ## The halt -/

/-- `raise Halt(cause)` of R11 and R201: the running bit is cleared and `pc` stands just past the
opcode byte; nothing else changes, and the cause is not stored (log entry 3). -/
def State.raiseHalt (s : State) (_cause : HaltCause) : State :=
  { s with running := false, pc := s.pc + 1 }

/-! ## Instruction fetch -/

/-- The bytes a decode at `a` can read: at most eight, and none at or above address 65536 (R43:
fetch does not wrap inside an instruction). -/
def fetchWindow (m : Memory) (a : Nat) : List Byte :=
  (List.range (min maxLength (memSize - a))).map (fun k => m.read (a + k))

/-- `Decode(mem, a)` of 30_encoding.md R85. -/
def decodeAt (t : OpcodeMap) (m : Memory) (a : Nat) : Except HaltCause (Instr × Nat) :=
  decodeWith t (fetchWindow m a)

/-- Lay bytes where the next step fetches them, as far as they fit below address 65536, on a running
Machine (log entry 10). -/
def State.placeInstr (s : State) (bytes : List Byte) : State :=
  { s with
    running := true
    mem := s.mem.writeBytes s.pc.toNat (bytes.take (memSize - s.pc.toNat)) }

end Sys2Proof.Machine
end

