-- ==== Sys2Proof/Machine/Operands.lean ====
section
/-! DEFINITION. How an operand becomes an address, a value or a place (spec 40_step_and_operands.md
R99 to R102), and the completion shared by the instructions that write a result. -/

namespace Sys2Proof.Machine

/-- `EA(m)` of R99, from the registers as the step finds them: the register is zero-extended, the
offset sign-extended, the sum reduced modulo 65536 (log entry 13). -/
def State.effAddr (s : State) : MemRef → Addr
  | .abs a => a
  | .ind r => (s.getReg r).setWidth 16
  | .off r off => (s.getReg r).setWidth 16 + off.signExtend 16

/-- `ReadOp` of R100; every operand kind is readable (R72; log entry 14). -/
def State.readOp (s : State) : Operand → Byte
  | .reg r => s.getReg r
  | .imm v => v
  | .mem m => s.readMem (s.effAddr m)

/-- Where a result goes. -/
inductive Place where
  | reg (r : Reg)
  | mem (a : Addr)
deriving DecidableEq, Repr

/-- The place a written operand names, resolved before any write of the instruction (R96 step 2,
R101; log entry 12). An immediate names none. -/
def State.placeOf (s : State) : Operand → Option Place
  | .reg r => some (.reg r)
  | .imm _ => none
  | .mem m => some (.mem (s.effAddr m))

/-- `WriteOp` of R101 at a resolved place. -/
def State.writePlace (s : State) (d : Place) (v : Byte) : State :=
  match d with
  | .reg r => s.setReg r v
  | .mem a => s.writeMem a v

/-- The end of every instruction that writes a result `r` to operand 0 and sets the flags from it:
`WriteOp(p, r); SetZS(r); pc <- next` (R96, R105). An immediate operand 0 is the encoding that halts
with `IMM_DEST` (30_encoding.md R81; DEDUCED, log entry 11). -/
def State.finishResult (s : State) (len : Nat) (p : Operand) (r : Byte) :
    Host.Outcome State Fault Refusal :=
  match s.placeOf p with
  | none => .next (s.raiseHalt .immDest)
  | some d => .next (((s.writePlace d r).setZS r).advance len)

end Sys2Proof.Machine
end

