-- ==== Sys2Proof/Machine/Arithmetic.lean ====
section
/-! DEFINITION. Integer arithmetic (spec 42_arithmetic.md R115 to R119): 8-bit wrap-around, no carry
and no overflow recorded. -/

namespace Sys2Proof.Machine

/-- R115 ADD. -/
def execAdd (p q : Operand) (s : State) : Host.Outcome State Fault Refusal :=
  s.finishResult (lengthB p q) p (s.readOp p + s.readOp q)

/-- R116 SUB: operand 0 minus operand 1. -/
def execSub (p q : Operand) (s : State) : Host.Outcome State Fault Refusal :=
  s.finishResult (lengthB p q) p (s.readOp p - s.readOp q)

/-- R117 INC. -/
def execInc (p : Operand) (s : State) : Host.Outcome State Fault Refusal :=
  s.finishResult (lengthU p) p (s.readOp p + 1)

/-- R118 DEC. -/
def execDec (p : Operand) (s : State) : Host.Outcome State Fault Refusal :=
  s.finishResult (lengthU p) p (s.readOp p - 1)

/-- R119 CMP: the flags of the difference, which is then discarded. -/
def execCmp (p q : Operand) (s : State) : Host.Outcome State Fault Refusal :=
  .next ((s.setZS (s.readOp p - s.readOp q)).advance (lengthB p q))

end Sys2Proof.Machine
end

