-- ==== Sys2Proof/Machine/Control.lean ====
section
/-! DEFINITION. Control transfer (spec 46_control.md R145 to R151): absolute targets, no delay slot,
no flag written. -/

namespace Sys2Proof.Machine

/-- R145 JMP. -/
def execJmp (target : Addr) (s : State) : Host.Outcome State Fault Refusal :=
  .next (s.jumpTo target)

/-- R146 JZ. -/
def execJz (target : Addr) (s : State) : Host.Outcome State Fault Refusal :=
  .next (if s.flags.zero then s.jumpTo target else s.advance 3)

/-- R147 JNZ. -/
def execJnz (target : Addr) (s : State) : Host.Outcome State Fault Refusal :=
  .next (if s.flags.zero then s.advance 3 else s.jumpTo target)

/-- R150 CALL: one byte is pushed, the low 8 bits of the address after the CALL (log
entry 7). -/
def execCall (target : Addr) (s : State) : Host.Outcome State Fault Refusal :=
  .next ((s.pushByte ((s.pc + 3).setWidth 8)).jumpTo target)

/-- R151 RET: `pc` is the popped byte, zero-extended (log entry 7, unsafe). -/
def execRet (s : State) : Host.Outcome State Fault Refusal :=
  .next (s.dropByte.jumpTo (s.topByte.setWidth 16))

end Sys2Proof.Machine
end

