-- ==== Sys2Proof/Machine/Halt.lean ====
section
/-! DEFINITION. Halting (spec 47_halt.md R155). -/

namespace Sys2Proof.Machine

/-- R155 HLT: the clean end of a run. -/
def execHlt (s : State) : Host.Outcome State Fault Refusal :=
  .next (s.raiseHalt .hlt)

end Sys2Proof.Machine
end

