-- ==== Sys2Proof/Machine/Logic.lean ====
section
/-! DEFINITION. Bitwise logic and shifts by a literal count (spec 43_logic_shift.md R125 to R130). -/

namespace Sys2Proof.Machine

/-- R125 AND. -/
def execAnd (p q : Operand) (s : State) : Host.Outcome State Fault Refusal :=
  s.finishResult (lengthB p q) p (s.readOp p &&& s.readOp q)

/-- R126 OR. -/
def execOr (p q : Operand) (s : State) : Host.Outcome State Fault Refusal :=
  s.finishResult (lengthB p q) p (s.readOp p ||| s.readOp q)

/-- R127 XOR. -/
def execXor (p q : Operand) (s : State) : Host.Outcome State Fault Refusal :=
  s.finishResult (lengthB p q) p (s.readOp p ^^^ s.readOp q)

/-- R128 NOT: every bit inverted. -/
def execNot (p : Operand) (s : State) : Host.Outcome State Fault Refusal :=
  s.finishResult (lengthU p) p (~~~ s.readOp p)

/-- R129 SHL: zeros enter at bit 0. -/
def execShl (p : Operand) (count : Count) (s : State) : Host.Outcome State Fault Refusal :=
  s.finishResult (lengthUS p) p (s.readOp p <<< count.val)

/-- R130 SHR: logical, zeros enter at bit 7. -/
def execShr (p : Operand) (count : Count) (s : State) : Host.Outcome State Fault Refusal :=
  s.finishResult (lengthUS p) p (s.readOp p >>> count.val)

end Sys2Proof.Machine
end

