-- ==== Sys2Proof/Machine/Move.lean ====
section
/-! DEFINITION. Data movement (spec 41_move.md R110). -/

namespace Sys2Proof.Machine

/-- R110 MOV. -/
def execMov (p q : Operand) (s : State) : Host.Outcome State Fault Refusal :=
  s.finishResult (lengthB p q) p (s.readOp q)

end Sys2Proof.Machine
end

