-- ==== Sys2Proof/Machine/Random.lean ====
section
/-! DEFINITION. The random instruction (spec 44_random.md R135, R136). -/

namespace Sys2Proof.Machine

/-- The byte `Draw()` yields now: the free value of R136 for the number of draws so far. -/
def State.drawn (s : State) : Byte := Config.entropy s.draws

/-- One draw is consumed. -/
def State.consumeDraw (s : State) : State := { s with draws := s.draws + 1 }

/-- R135 RND. An immediate operand 0 halts (`IMM_DEST`) without a draw, since it does not decode. -/
def execRnd (p : Operand) (s : State) : Host.Outcome State Fault Refusal :=
  match s.placeOf p with
  | none => .next (s.raiseHalt .immDest)
  | some _ => s.consumeDraw.finishResult (lengthU p) p s.drawn

end Sys2Proof.Machine
end

