-- ==== Sys2Proof/Machine/Stack.lean ====
section
/-! DEFINITION. Stack transfer of one byte (spec 45_stack.md R140, R141). No flag is written. -/

namespace Sys2Proof.Machine

/-- R140 PUSH: the operand is read before `sp` moves. -/
def execPush (p : Operand) (s : State) : Host.Outcome State Fault Refusal :=
  .next ((s.pushByte (s.readOp p)).advance (lengthU p))

/-- R141 POP: the destination is resolved before the pop; `sp` moves before the write. -/
def execPop (p : Operand) (s : State) : Host.Outcome State Fault Refusal :=
  match s.placeOf p with
  | none => .next (s.raiseHalt .immDest)
  | some d => .next ((s.dropByte.writePlace d s.topByte).advance (lengthU p))

end Sys2Proof.Machine
end

