-- ==== Sys2Proof/Machine/Dispatch.lean ====
section
/-! DEFINITION. The dispatcher (spec 40_step_and_operands.md R95): one arm per instruction. -/

namespace Sys2Proof.Machine

/-- One instruction at the state the step finds, its opcode byte at `pc`. -/
def exec (i : Instr) (s : State) : Host.Outcome State Fault Refusal :=
  match i with
  | .hlt => Sys2Proof.Machine.execHlt s
  | .ret => Sys2Proof.Machine.execRet s
  | .mov p q => Sys2Proof.Machine.execMov p q s
  | .add p q => Sys2Proof.Machine.execAdd p q s
  | .sub p q => Sys2Proof.Machine.execSub p q s
  | .cmp p q => Sys2Proof.Machine.execCmp p q s
  | .and p q => Sys2Proof.Machine.execAnd p q s
  | .or p q => Sys2Proof.Machine.execOr p q s
  | .xor p q => Sys2Proof.Machine.execXor p q s
  | .inc p => Sys2Proof.Machine.execInc p s
  | .dec p => Sys2Proof.Machine.execDec p s
  | .not p => Sys2Proof.Machine.execNot p s
  | .shl p count => Sys2Proof.Machine.execShl p count s
  | .shr p count => Sys2Proof.Machine.execShr p count s
  | .rnd p => Sys2Proof.Machine.execRnd p s
  | .push p => Sys2Proof.Machine.execPush p s
  | .pop p => Sys2Proof.Machine.execPop p s
  | .jmp target => Sys2Proof.Machine.execJmp target s
  | .jz target => Sys2Proof.Machine.execJz target s
  | .jnz target => Sys2Proof.Machine.execJnz target s
  | .call target => Sys2Proof.Machine.execCall target s

end Sys2Proof.Machine
end

