-- ==== Sys2Proof/Machine/Cycle.lean ====
section
/-! DEFINITION. The step cycle under any configuration (spec 40_step_and_operands.md R90 to R94), and
the cause label of the halt a step ends in (60_exceptions.md R202), which is worked out from memory
and never stored. -/

namespace Sys2Proof

/-- R202: the numbers of the cause labels. -/
def HaltCause.number : HaltCause → Nat
  | .hlt => 0
  | .unknownOpcode => 1
  | .fetchPastEnd => 2
  | .badMode => 3
  | .immDest => 4
  | .badReg => 5
  | .badSubmode => 6
  | .badCount => 7

/-- R157, R202: only HLT is a clean end of a run. -/
def HaltCause.clean : HaltCause → Bool
  | .hlt => true
  | .unknownOpcode => false
  | .fetchPastEnd => false
  | .badMode => false
  | .immDest => false
  | .badReg => false
  | .badSubmode => false
  | .badCount => false

/-- The causes for which REV says nothing, so that a cautious model may fault (U2 to U6). The halts
of an unknown opcode and of a fetch past the end are REV's own and never a fault. -/
def HaltCause.undefinedByRev : HaltCause → Bool
  | .hlt => false
  | .unknownOpcode => false
  | .fetchPastEnd => false
  | .badMode => true
  | .immDest => true
  | .badReg => true
  | .badSubmode => true
  | .badCount => true

end Sys2Proof

namespace Sys2Proof.Machine

/-- Whether the instruction transfers control in this state and does not go on to `next` (R91, R94,
R148): a taken jump, CALL and RET. -/
def transfersControl : Instr → State → Bool
  | .hlt, _ => false
  | .ret, _ => true
  | .mov _ _, _ => false
  | .add _ _, _ => false
  | .sub _ _, _ => false
  | .cmp _ _, _ => false
  | .and _ _, _ => false
  | .or _ _, _ => false
  | .xor _ _, _ => false
  | .inc _, _ => false
  | .dec _, _ => false
  | .not _, _ => false
  | .shl _ _, _ => false
  | .shr _ _, _ => false
  | .rnd _, _ => false
  | .push _, _ => false
  | .pop _, _ => false
  | .jmp _, _ => true
  | .jz _, s => s.flags.zero
  | .jnz _, s => !s.flags.zero
  | .call _, _ => true

/-- Whether execution goes on at the sequential successor: the instruction does not transfer control,
and is not HLT, which ends the run. DESIGN CHOICE (log entry 2): R94 does not say whether HLT at the
last byte falls through; the model follows R8 ("falls through") and R155, by which it halts with
`pc = 0`. -/
def fallsThrough (i : Instr) (s : State) : Bool := !transfersControl i s && decide (i ≠ .hlt)

/-- `PC_WRAP = fault` of R94: `a + L = 65536` and the instruction falls through. -/
def fallsPastEnd (i : Instr) (len : Nat) (s : State) : Bool :=
  s.pc.toNat + len == memSize && fallsThrough i s

/-- One `step()` (R90, R91). A halted Machine does nothing. A running one decodes at `pc`, and halts
(R92) or executes the instruction. Log entries 2 (`PC_WRAP`), 3 (non-canonical encodings) and 9 (a
halted Machine). -/
def stepUnder (c : Config) (s : State) : Host.Outcome State Fault Refusal :=
  if s.running then
    match decodeAt c.opcode s.mem s.pc.toNat with
    | .error cause =>
      if c.nonCanonical = .fault ∧ cause.undefinedByRev then .fault (.nonCanonical cause)
      else .next (s.raiseHalt cause)
    | .ok (i, len) =>
      if c.pcWrap = .fault ∧ fallsPastEnd i len s then .fault .pcPastEnd else exec i s
  else .next s

/-- The cause label of the halt the next step ends in, if it halts (R202, R203). -/
def haltCauseUnder (c : Config) (s : State) : Option HaltCause :=
  if s.running then
    match decodeAt c.opcode s.mem s.pc.toNat with
    | .error cause => some cause
    | .ok (i, _) => if i = .hlt then some .hlt else none
  else none

/-- The cause of the halt a halted Machine stands in: after any halt the opcode byte is at
`(pc - 1) mod 65536` and memory is unchanged (R202). It says nothing once `loadProgram` has moved `pc`. -/
def lastHaltCause (c : Config) (s : State) : Option HaltCause :=
  haltCauseUnder c { s with running := true, pc := s.pc - 1 }

/-- What `step()` returns to the host (R90): whether the Machine goes on. It is the running bit of
the state the step leaves. -/
def continueSignal : Host.Outcome State Fault Refusal → Bool
  | .next t => t.running
  | .fault _ => false
  | .refused _ => false

end Sys2Proof.Machine
end

