-- ==== Sys2Proof/Machine/Step.lean ====
section
/-! DEFINITION. The step of this machine, and an instruction placed where it fetches. -/

namespace Sys2Proof.Machine

/-- `step()` with the parameters of `Config.machine`. -/
def step (s : State) : Host.Outcome State Fault Refusal := stepUnder Config.machine s

/-- `s` with the word's bytes stored at `pc`, and running. -/
def State.withFetchWord (s : State) (nbits w : Nat) : State :=
  s.placeInstr (wordBytes nbits w)

end Sys2Proof.Machine
end

