-- ==== Sys2Proof/Machine/Text.lean ====
section
/-! DEFINITION. Characters and numerals shared by the Encoder and the Decoder (spec 48_assembler.md
R163 to R169, 49_disassembler.md R195). Text is a list of characters. -/

namespace Sys2Proof.Machine

abbrev Text := List Char

/-- The upper-case spelling of each mnemonic (R70, R195). -/
def mnemonicText : Mnemonic → Text
  | .z .hlt => ['H', 'L', 'T']
  | .z .ret => ['R', 'E', 'T']
  | .b .mov => ['M', 'O', 'V']
  | .b .add => ['A', 'D', 'D']
  | .b .sub => ['S', 'U', 'B']
  | .b .cmp => ['C', 'M', 'P']
  | .b .and => ['A', 'N', 'D']
  | .b .or => ['O', 'R']
  | .b .xor => ['X', 'O', 'R']
  | .u .inc => ['I', 'N', 'C']
  | .u .dec => ['D', 'E', 'C']
  | .u .not => ['N', 'O', 'T']
  | .us .shl => ['S', 'H', 'L']
  | .us .shr => ['S', 'H', 'R']
  | .u .rnd => ['R', 'N', 'D']
  | .u .push => ['P', 'U', 'S', 'H']
  | .u .pop => ['P', 'O', 'P']
  | .j .jmp => ['J', 'M', 'P']
  | .j .jz => ['J', 'Z']
  | .j .jnz => ['J', 'N', 'Z']
  | .j .call => ['C', 'A', 'L', 'L']

/-- White space inside a line (R163): spaces and tabs. -/
def isBlank (c : Char) : Bool := c == ' ' || c == '\t'

/-- Leading and trailing white space removed. -/
def trim (t : Text) : Text := ((t.dropWhile isBlank).reverse.dropWhile isBlank).reverse

/-- The pieces between separators; `n` separators give `n + 1` pieces. -/
def splitAt (sep : Char) : Text → List Text
  | [] => [[]]
  | c :: cs =>
    if c = sep then [] :: splitAt sep cs
    else
      match splitAt sep cs with
      | [] => [[c]]
      | l :: ls => (c :: l) :: ls

/-- An ASCII letter in upper case; any other character as it is. -/
def upperChar (c : Char) : Char :=
  if 'a' ≤ c ∧ c ≤ 'z' then Char.ofNat (c.toNat - 32) else c

def upper (t : Text) : Text := t.map upperChar

def isLetter (c : Char) : Bool := decide ('a' ≤ c ∧ c ≤ 'z') || decide ('A' ≤ c ∧ c ≤ 'Z')
def isDigit (c : Char) : Bool := decide ('0' ≤ c ∧ c ≤ '9')

/-- R164: the first character of an identifier, and the further ones. -/
def isIdentStart (c : Char) : Bool := isLetter c || c == '_'
def isIdentChar (c : Char) : Bool := isLetter c || isDigit c || c == '_'

/-- The identifier a text begins with (empty if none) and what follows it. -/
def leadingIdent (t : Text) : Text × Text :=
  match t with
  | [] => ([], [])
  | c :: cs => if isIdentStart c then (c :: cs.takeWhile isIdentChar, cs.dropWhile isIdentChar) else ([], t)

/-! ## Numerals -/

/-- The value of a digit in base 16; a decimal digit is one below 10. -/
def digitValue (c : Char) : Option Nat :=
  if '0' ≤ c ∧ c ≤ '9' then some (c.toNat - 48)
  else if 'a' ≤ c ∧ c ≤ 'f' then some (c.toNat - 87)
  else if 'A' ≤ c ∧ c ≤ 'F' then some (c.toNat - 55)
  else none

/-- Digits of a base, most significant first, onto a value. -/
def readDigits (base : Nat) : Nat → Text → Option Nat
  | v, [] => some v
  | v, c :: cs =>
    match digitValue c with
    | none => none
    | some d => if d < base then readDigits base (v * base + d) cs else none

/-- One or more digits. -/
def readNumeral (base : Nat) (t : Text) : Option Nat :=
  if t = [] then none else readDigits base 0 t

/-- An unsigned literal of R169: decimal, or hexadecimal after `0x` or `0X`. -/
def readUnsigned (t : Text) : Option Nat :=
  match t with
  | '0' :: 'x' :: ds => readNumeral 16 ds
  | '0' :: 'X' :: ds => readNumeral 16 ds
  | ds => readNumeral 10 ds

/-- A literal of R169 without its `#`. -/
def readSigned (t : Text) : Option Int :=
  match t with
  | '-' :: ds => (readUnsigned ds).map (fun v => -(v : Int))
  | ds => (readUnsigned ds).map (fun v => (v : Int))

/-- A literal of R169, with or without a leading `#`. -/
def readLiteral (t : Text) : Option Int :=
  match t with
  | '#' :: ds => readSigned ds
  | ds => readSigned ds

/-- One digit, upper case. -/
def digitChar (d : Nat) : Char := if d < 10 then Char.ofNat (48 + d) else Char.ofNat (55 + d)

/-- A number below 1000 in decimal without leading zeros. -/
def decimalText (n : Nat) : Text :=
  if n < 10 then [digitChar n]
  else if n < 100 then [digitChar (n / 10), digitChar (n % 10)]
  else [digitChar (n / 100), digitChar (n / 10 % 10), digitChar (n % 10)]

/-- `0x` and two upper-case hex digits. -/
def hexByteText (b : Byte) : Text :=
  ['0', 'x', digitChar (b.toNat / 16), digitChar (b.toNat % 16)]

/-- `0x` and four upper-case hex digits. -/
def hexAddrText (a : Addr) : Text :=
  ['0', 'x', digitChar (a.toNat / 4096), digitChar (a.toNat / 256 % 16),
   digitChar (a.toNat / 16 % 16), digitChar (a.toNat % 16)]

end Sys2Proof.Machine
end

