-- ==== Sys2Proof/Machine/Assembler.lean ====
section
/-! DEFINITION. The Encoder (spec 48_assembler.md): a two-pass assembler from text to bytes, a pure
function that answers a program or one line-addressed error and no bytes (R160). What the spec's
text rules leave open is fixed by log entry 15. -/

namespace Sys2Proof.Machine

/-- The error kinds of R181. -/
inductive AsmErrorKind where
  | unknownMnemonic
  | operandCount
  | unknownRegister
  | badBracket
  | unresolvedLabel
  | immDest
  | badShiftCount
  | badJumpOperand
  | duplicateLabel
  | tooLarge
deriving DecidableEq, Repr

/-- `Error` of R160: the line number, the offending token, the kind. -/
structure AsmError where
  line : Nat
  token : Text
  kind : AsmErrorKind
deriving DecidableEq, Repr

/-- `Program` of R160. -/
structure Program where
  bytes : List Byte
  loadAddress : Nat
deriving DecidableEq, Repr

/-! ## Operands before label resolution -/

/-- A number, or a label whose address is not known yet. -/
inductive Ref where
  | value (v : Int)
  | label (name : Text)
deriving DecidableEq, Repr

/-- A parsed operand (R167). A label reference is of kind immediate (R174). -/
inductive AsmOperand where
  | reg (r : Reg)
  | ref (v : Ref)
  | mem (m : MemRef)
deriving DecidableEq, Repr

/-- A parsed instruction with its references symbolic. -/
inductive AsmInstr where
  | z (o : ZOp)
  | j (o : JOp) (target : Ref)
  | u (o : UOp) (p : AsmOperand)
  | us (o : USOp) (p : AsmOperand) (count : Count)
  | b (o : BOp) (p q : AsmOperand)
deriving DecidableEq, Repr

/-! ## Lines and tokens (R163 to R165) -/

/-- Every line but the last ends at a line feed and loses one carriage return before it. -/
def dropCarriageReturns : List Text → List Text
  | [] => []
  | [l] => [l]
  | l :: ls =>
    (if l.getLast? = some '\r' then l.dropLast else l) :: dropCarriageReturns ls

/-- The comment and the surrounding white space removed. -/
def cleanLine (l : Text) : Text := trim (l.takeWhile (· ≠ ';'))

/-- Lines numbered from `n`. -/
def numberLines (n : Nat) : List Text → List (Nat × Text)
  | [] => []
  | l :: ls => (n, l) :: numberLines (n + 1) ls

/-- R163: the non-blank, comment-stripped lines with their numbers in the original text. -/
def sourceLines (source : Text) : List (Nat × Text) :=
  ((numberLines 1 (dropCarriageReturns (splitAt '\n' source))).map
    (fun l => (l.1, cleanLine l.2))).filter (fun l => l.2 ≠ [])

/-- R164: the label a line defines and the rest of the line. -/
def labelDefinition (line : Text) : Option (Text × Text) :=
  let (name, rest) := leadingIdent line
  if name = [] then none
  else
    match rest.dropWhile isBlank with
    | ':' :: after => some (name, trim after)
    | _ => none

/-- R165: the mnemonic token and the operand tokens. -/
def tokens (line : Text) : Text × List Text :=
  let mn := line.takeWhile (fun c => !isBlank c)
  let rest := trim (line.dropWhile (fun c => !isBlank c))
  (mn, if rest = [] then [] else (splitAt ',' rest).map trim)

/-- R165: a mnemonic in any letter case. -/
def lookupMnemonic (token : Text) : Option Mnemonic :=
  Mnemonic.all.find? (fun m => mnemonicText m == upper token)

/-- R166: the operand tokens a mnemonic takes; a shift takes its count as a second token. -/
def operandCount : Mnemonic → Nat
  | .z _ => 0
  | .j _ => 1
  | .u _ => 1
  | .us _ => 2
  | .b _ => 2

/-! ## Operand tokens (R167 to R173) -/

/-- R168: a register name or alias in any letter case. DESIGN CHOICE (log entry 15): where a configured
`REGNAME` gives one name to two registers, or a name equal to an alias in some letter case, the token
names the first register by rising index, and a name goes before an alias. -/
def lookupRegister (c : Config) (token : Text) : Option Reg :=
  (((List.finRange 8).map (fun r => (c.regName r, r)) ++ c.regAlias).find?
    (fun e => upper e.1 == upper token)).map Prod.snd

/-- The offset byte of a value in `-128..127` (R170). -/
def offsetByte (v : Int) : Option Byte :=
  if -128 ≤ v ∧ v ≤ 127 then some (BitVec.ofInt 8 v) else none

/-- What follows the register in a bracket expression: nothing, or a signed offset. -/
def bracketTail (r : Reg) : Text → Except AsmErrorKind MemRef
  | [] => .ok (.ind r)
  | '+' :: ds =>
    match (readUnsigned ds).bind (fun v => offsetByte (v : Int)) with
    | some off => .ok (.off r off)
    | none => .error .badBracket
  | '-' :: ds =>
    match (readUnsigned ds).bind (fun v => offsetByte (-(v : Int))) with
    | some off => .ok (.off r off)
    | none => .error .badBracket
  | _ => .error .badBracket

/-- Whether a text is one identifier (R164). -/
def isIdentifier (t : Text) : Bool :=
  match t with
  | [] => false
  | c :: cs => isIdentStart c && cs.all isIdentChar

/-- Whether a character begins the offset of a bracket expression (R170). -/
def isSign (c : Char) : Bool := c == '+' || c == '-'

/-- The inside of a bracket expression, its white space already removed (R170). DESIGN CHOICE (log
entry 15): R168 does not say that a configured name is an identifier. An unsigned literal is tried
first; the register position is what stands before the first `+` or `-`, and any configured name
found there is a register, identifier or not; so no name that holds `+`, `-`, a space or a tab, or
that reads as an unsigned literal, can stand alone in brackets. -/
def parseBracketInside (c : Config) (inside : Text) : Except AsmErrorKind MemRef :=
  match readUnsigned inside with
  | some v => .ok (.abs (BitVec.ofNat 16 v))
  | none =>
    let name := inside.takeWhile (fun ch => !isSign ch)
    match lookupRegister c name with
    | some r => bracketTail r (inside.dropWhile (fun ch => !isSign ch))
    | none => .error (if isIdentifier name then .unknownRegister else .badBracket)

/-- R170: a bracketed memory expression. -/
def parseBracket (c : Config) (token : Text) : Except AsmErrorKind MemRef :=
  match token with
  | '[' :: rest =>
    if rest.getLast? = some ']' then
      parseBracketInside c (rest.dropLast.filter (fun ch => !isBlank ch))
    else .error .badBracket
  | _ => .error .badBracket

/-- R167: register name, literal, bracketed expression, label reference, tried in this order. DESIGN
CHOICE (log entry 15): a token that begins with `#`, is no literal and ends with `]` (`#x]`, `#[16]`)
meets try 3 of R167, and so is `E_BAD_BRACKET`, while R169 sends every `#` without a literal on to
try 4, an unresolved label; the model follows the order of R167. -/
def parseOperand (c : Config) (token : Text) : Except AsmErrorKind AsmOperand :=
  match lookupRegister c token with
  | some r => .ok (.reg r)
  | none =>
    match readLiteral token with
    | some v => .ok (.ref (.value v))
    | none =>
      if token.head? = some '[' ∨ token.getLast? = some ']' then
        (parseBracket c token).map AsmOperand.mem
      else .ok (.ref (.label token))

/-- R171: a shift count, a literal `0..7`. -/
def parseCount (token : Text) : Except AsmErrorKind Count :=
  match readLiteral token with
  | some v =>
    if h : 0 ≤ v ∧ v < 8 then .ok ⟨v.toNat, by omega⟩ else .error .badShiftCount
  | none => .error .badShiftCount

/-- R173: whether an operand 0 is of kind immediate. -/
def isImmediate : AsmOperand → Bool
  | .reg _ => false
  | .ref _ => true
  | .mem _ => false

/-- R172: what a jump or call accepts. -/
def jumpTarget : AsmOperand → Except AsmErrorKind Ref
  | .reg _ => .error .badJumpOperand
  | .ref v => .ok v
  | .mem _ => .error .badJumpOperand

/-- R173: an immediate operand 0 on an instruction that writes it. -/
def checkAsmDest (writes : Bool) (p : AsmOperand) : Except AsmErrorKind Unit :=
  if writes && isImmediate p then .error .immDest else .ok ()

/-- An error at a token. -/
def atToken {α : Type} (token : Text) : Except AsmErrorKind α → Except (Text × AsmErrorKind) α
  | .ok a => .ok a
  | .error k => .error (token, k)

/-- R176: the operands of an instruction line parsed in order, then checked. -/
def parseInstr (c : Config) (mnToken : Text) (ops : List Text) :
    Except (Text × AsmErrorKind) AsmInstr :=
  match lookupMnemonic mnToken with
  | none => .error (mnToken, .unknownMnemonic)
  | some m =>
    match m, ops with
    | .z o, [] => .ok (.z o)
    | .j o, [t] => do
      let p ← atToken t (parseOperand c t)
      let target ← atToken t (jumpTarget p)
      return .j o target
    | .u o, [t] => do
      let p ← atToken t (parseOperand c t)
      atToken t (checkAsmDest o.writes p)
      return .u o p
    | .us o, [t, n] => do
      let p ← atToken t (parseOperand c t)
      let count ← atToken n (parseCount n)
      atToken t (checkAsmDest true p)
      return .us o p count
    | .b o, [t, t'] => do
      let p ← atToken t (parseOperand c t)
      let q ← atToken t' (parseOperand c t')
      atToken t (checkAsmDest o.writes p)
      return .b o p q
    | _, _ => .error (mnToken, .operandCount)

/-! ## References to values -/

/-- The number a reference stands for, given the address of every label. -/
def refValue (address : Text → Nat) : Ref → Int
  | .value v => v
  | .label name => (address name : Int)

/-- An operand with its reference reduced modulo 256 into the value byte (R169, R174). -/
def resolveOperand (address : Text → Nat) : AsmOperand → Operand
  | .reg r => .reg r
  | .ref v => .imm (BitVec.ofInt 8 (refValue address v))
  | .mem m => .mem m

/-- The instruction with every label replaced (R178); a jump target is reduced modulo 65536. -/
def resolveInstr (address : Text → Nat) : AsmInstr → Instr
  | .z o => instrZ o
  | .j o target => instrJ (BitVec.ofInt 16 (refValue address target)) o
  | .u o p => instrU (resolveOperand address p) o
  | .us o p count => instrUS (resolveOperand address p) count o
  | .b o p q => instrB (resolveOperand address p) (resolveOperand address q) o

/-- R177 `Length(mn, kinds)`: the length with every label replaced by 0. -/
def asmLength (i : AsmInstr) : Nat := (resolveInstr (fun _ => 0) i).length

def refLabels : Ref → List Text
  | .value _ => []
  | .label name => [name]

def operandLabels : AsmOperand → List Text
  | .reg _ => []
  | .ref v => refLabels v
  | .mem _ => []

/-- The labels an instruction refers to, in operand order. -/
def instrLabels : AsmInstr → List Text
  | .z _ => []
  | .j _ target => refLabels target
  | .u _ p => operandLabels p
  | .us _ p _ => operandLabels p
  | .b _ p q => operandLabels p ++ operandLabels q

/-! ## The two passes (R176, R178) -/

/-- The symbol table: label names and their addresses (R179). -/
abbrev SymTab := List (Text × Nat)

def lookupLabel (tab : SymTab) (name : Text) : Option Nat :=
  (tab.find? (fun e => e.1 == name)).map Prod.snd

/-- An instruction with its line and its address. -/
structure AsmItem where
  line : Nat
  instr : AsmInstr
  addr : Nat
deriving DecidableEq, Repr

/-- What Pass 1 builds. -/
structure PassOne where
  pc : Nat
  symtab : SymTab
  items : List AsmItem
  lastLine : Nat
deriving DecidableEq, Repr

/-- The label of a line, if it defines one, entered into the table; what is left of the line. -/
def defineLabel (ln : Nat) (line : Text) (st : PassOne) : Except AsmError (Text × PassOne) :=
  match labelDefinition line with
  | none => .ok (line, st)
  | some (name, rest) =>
    if (lookupLabel st.symtab name).isSome then
      .error { line := ln, token := name, kind := .duplicateLabel }
    else .ok (rest, { st with symtab := st.symtab ++ [(name, st.pc)] })

/-- An instruction text, sized and entered as an item. -/
def placeLine (c : Config) (ln : Nat) (text : Text) (st : PassOne) : Except AsmError PassOne :=
  match parseInstr c (tokens text).1 (tokens text).2 with
  | .error (token, kind) => .error { line := ln, token := token, kind := kind }
  | .ok i =>
    .ok { st with
      pc := st.pc + asmLength i
      items := st.items ++ [{ line := ln, instr := i, addr := st.pc }] }

/-- One line of Pass 1. -/
def passOneLine (c : Config) (ln : Nat) (line : Text) (st : PassOne) : Except AsmError PassOne := do
  let (rest, st) ← defineLabel ln line st
  let st := { st with lastLine := ln }
  if rest = [] then return st else placeLine c ln rest st

/-- The lines of Pass 1 in order. -/
def passOneLines (c : Config) : List (Nat × Text) → PassOne → Except AsmError PassOne
  | [], st => .ok st
  | (ln, line) :: ls, st => do
    let st ← passOneLine c ln line st
    passOneLines c ls st

/-- What Pass 1 starts from (R176). -/
def passOneStart (origin : Nat) : PassOne := { pc := origin, symtab := [], items := [], lastLine := 1 }

/-- R176: Pass 1 from `ORIGIN`, with the size check at its end. -/
def passOne (c : Config) (origin : Nat) (source : Text) : Except AsmError PassOne := do
  let st ← passOneLines c (sourceLines source) (passOneStart origin)
  if st.pc > memSize then .error { line := st.lastLine, token := ['-'], kind := .tooLarge }
  else return st

/-- One item of Pass 2: its labels resolved, its bytes emitted. -/
def emitItem (c : Config) (tab : SymTab) (item : AsmItem) : Except AsmError (List Byte) :=
  match (instrLabels item.instr).find? (fun name => (lookupLabel tab name).isNone) with
  | some name => .error { line := item.line, token := name, kind := .unresolvedLabel }
  | none =>
    .ok (encodeWith c.opcode
      (resolveInstr (fun name => (lookupLabel tab name).getD 0) item.instr))

/-- R178: Pass 2. -/
def passTwo (c : Config) (tab : SymTab) : List AsmItem → Except AsmError (List Byte)
  | [] => .ok []
  | item :: items => do
    let bytes ← emitItem c tab item
    let rest ← passTwo c tab items
    return bytes ++ rest

/-- R160 `assemble(source, ORIGIN)`. -/
def assemble (c : Config) (origin : Nat) (source : Text) : Except AsmError Program := do
  let st ← passOne c origin source
  let bytes ← passTwo c st.symtab st.items
  return { bytes := bytes, loadAddress := origin }

/-- The default of `ORIGIN` (00_scope.md R8). -/
def defaultOrigin : Nat := 0

end Sys2Proof.Machine
end

