-- ==== Sys2Proof/Machine/Disassembler.lean ====
section
/-! DEFINITION. The Decoder (spec 49_disassembler.md): a pure function from memory and a range to a
listing, over the same `decodeAt` the step uses (R191). -/

namespace Sys2Proof.Machine

/-- One listing entry (R190). -/
structure ListingEntry where
  address : Nat
  raw : List Byte
  text : Text
deriving DecidableEq, Repr

/-- The signed offset of a register+offset operand, sign always printed (R195). -/
def offsetText (off : Byte) : Text :=
  if off.toNat < 128 then '+' :: decimalText off.toNat else '-' :: decimalText (256 - off.toNat)

/-- The text of a memory operand (R195). -/
def memRefText (c : Config) : MemRef → Text
  | .abs a => '[' :: (hexAddrText a ++ [']'])
  | .ind r => '[' :: (c.regName r ++ [']'])
  | .off r off => '[' :: (c.regName r ++ offsetText off ++ [']'])

/-- The text of an operand (R195). -/
def operandText (c : Config) : Operand → Text
  | .reg r => c.regName r
  | .imm v => '#' :: decimalText v.toNat
  | .mem m => memRefText c m

/-- The operand texts of an instruction: operands in order, then a shift count; a jump prints its
numeric target. -/
def operandTexts (c : Config) : Instr → List Text
  | .hlt => []
  | .ret => []
  | .mov p q => [operandText c p, operandText c q]
  | .add p q => [operandText c p, operandText c q]
  | .sub p q => [operandText c p, operandText c q]
  | .cmp p q => [operandText c p, operandText c q]
  | .and p q => [operandText c p, operandText c q]
  | .or p q => [operandText c p, operandText c q]
  | .xor p q => [operandText c p, operandText c q]
  | .inc p => [operandText c p]
  | .dec p => [operandText c p]
  | .not p => [operandText c p]
  | .shl p count => [operandText c p, decimalText count.val]
  | .shr p count => [operandText c p, decimalText count.val]
  | .rnd p => [operandText c p]
  | .push p => [operandText c p]
  | .pop p => [operandText c p]
  | .jmp target => [hexAddrText target]
  | .jz target => [hexAddrText target]
  | .jnz target => [hexAddrText target]
  | .call target => [hexAddrText target]

/-- Operands separated by commas with no space, after one space (R195). -/
def joinOperands : List Text → Text
  | [] => []
  | [p] => ' ' :: p
  | p :: rest => ' ' :: (p ++ (rest.map (fun q => ',' :: q)).flatten)

/-- `Text(mn, ops)` of R195. -/
def instrText (c : Config) (i : Instr) : Text :=
  mnemonicText i.mnemonic ++ joinOperands (operandTexts c i)

/-- The raw-data entry of one byte (R194). -/
def rawEntry (m : Memory) (a : Nat) : ListingEntry :=
  { address := a, raw := [m.read a], text := ['D', 'B', ' '] ++ hexByteText (m.read a) }

/-- The entry of an instruction of `len` bytes at `a` (R192). -/
def instrEntry (c : Config) (m : Memory) (a len : Nat) (i : Instr) : ListingEntry :=
  { address := a, raw := (fetchWindow m a).take len, text := instrText c i }

/-- The listing loop of R192, one entry a turn; every turn moves `a` up, so `stop - start` turns
suffice. -/
def listFrom (c : Config) (m : Memory) (stop : Nat) : Nat → Nat → List ListingEntry
  | 0, _ => []
  | fuel + 1, a =>
    if a < stop then
      match decodeAt c.opcode m a with
      | .error _ => rawEntry m a :: listFrom c m stop fuel (a + 1)
      | .ok (i, len) =>
        if a + len ≤ stop then
          instrEntry c m a len i ::
            (if i = .hlt then [] else listFrom c m stop fuel (a + len))
        else rawEntry m a :: listFrom c m stop fuel (a + 1)
    else []

/-- R190 `disassemble(memory, start, end)`, `end` exclusive. -/
def disassemble (c : Config) (m : Memory) (start stop : Nat) : List ListingEntry :=
  listFrom c m stop (stop - start) start

/-- R190, R222 as the host calls it: a range with `0 <= start <= end <= 65536`, nothing otherwise
(log entry 16). -/
def disassembleRange (c : Config) (s : State) (start stop : Nat) : Option (List ListingEntry) :=
  if start ≤ stop ∧ stop ≤ memSize then some (disassemble c s.mem start stop) else none

end Sys2Proof.Machine
end

