-- ==== Sys2Proof/Machine/HostInterface.lean ====
section
/-! DEFINITION. What the host can do to the Machine (spec 70_reset_and_hazards.md R220 to R224): the
transactions `reset()`, `loadProgram(bytes, base)` and `step()`, the read-only accessors of
10_state.md R36, and the host's run loop under fuel. -/

namespace Sys2Proof.Machine

/-! ## Transactions -/

/-- R220 `reset()`: every piece of state at its reset value. The entropy source is not rewound
(R33, R136), so the count of draws stays. -/
def resetTransaction (c : Config) (s : State) : State :=
  { State.resetUnder c with draws := s.draws }

/-- R221 `loadProgram(bytes, base)`: copy with wrap-around, `prog_end <- base + length`,
`pc <- base`; nothing else changes. Outside the domain of R221 the model refuses (U16;
log entry 10). -/
def loadProgram (bytes : List Byte) (base : Nat) (s : State) : Host.Outcome State Fault Refusal :=
  if base < memSize ∧ bytes.length ≤ memSize then
    .next { s with
      mem := s.mem.writeBytes base bytes
      progEnd := base + bytes.length
      pc := BitVec.ofNat 16 base }
  else .refused .loadOutOfDomain

/-- The state-changing transactions of R222. -/
inductive Transaction where
  | reset
  | loadProgram (bytes : List Byte) (base : Nat)
  | step
deriving DecidableEq, Repr

/-- One transaction (R222); they never overlap (R55). -/
def transact (c : Config) (x : Transaction) (s : State) : Host.Outcome State Fault Refusal :=
  match x with
  | .reset => .next (resetTransaction c s)
  | .loadProgram bytes base => loadProgram bytes base s
  | .step => stepUnder c s

/-! ## Accessors (R36): they change nothing -/

def readRegister (s : State) (r : Reg) : Byte := s.getReg r
def readStackPointer (s : State) : Addr := s.sp
def readInstructionPointer (s : State) : Addr := s.pc
def readZero (s : State) : Bool := s.flags.zero
def readSign (s : State) : Bool := s.flags.sign
def readCarry (s : State) : Bool := s.flags.carry
def readOverflow (s : State) : Bool := s.flags.overflow
def readRunning (s : State) : Bool := s.running
def readMemory (s : State) (a : Addr) : Byte := s.readMem a
def readProgramEnd (s : State) : Nat := s.progEnd

/-- A range of memory bytes: `len` of them from `a`, wrapping at 65536 (DESIGN CHOICE, log entry 16). -/
def readMemoryRange (s : State) (a : Addr) (len : Nat) : List Byte :=
  (List.range len).map (fun k => s.readMem (a + BitVec.ofNat 16 k))

/-! ## The run loop -/

/-- How a run of the host's loop ends (R157, R224; U1, U19). -/
inductive RunResult where
  /-- The first `step()` that returned `continue = false`, with the state it left and the cause of the
  halt (`none` where the Machine was halted before the run). -/
  | ended (s : State) (cause : Option HaltCause)
  /-- The fuel ran out first: neither a halt nor a fault. -/
  | outOfFuel (s : State)
  | faulted (f : Fault)
  | refused (r : Refusal)
deriving DecidableEq, Repr

/-- R223, R224: step until `continue = false`, at most `fuel` times. -/
def runUntilHalt (c : Config) : Nat → State → RunResult
  | 0, s => .outOfFuel s
  | fuel + 1, s =>
    match stepUnder c s with
    | .next t => if t.running then runUntilHalt c fuel t else .ended t (haltCauseUnder c s)
    | .fault f => .faulted f
    | .refused r => .refused r

/-- R157: the run ended, and ended by HLT. -/
def RunResult.endedCleanly : RunResult → Bool
  | .ended _ (some cause) => cause.clean
  | .ended _ none => false
  | .outOfFuel _ => false
  | .faulted _ => false
  | .refused _ => false

end Sys2Proof.Machine
end

