-- ==== Sys2Proof/Safety.lean ====
section
/-! DEFINITION. What counts as a good state and a safe run, in the terms the claims use. -/

namespace Sys2Proof.Machine

/-- The invariant of the Machine: memory is in canonical form, the reserved flags read 0
(10_state.md R27), and `prog_end` is in the range R20 gives it. -/
structure State.Inv (s : State) : Prop where
  memory : s.mem.wf
  carry : s.flags.carry = false
  overflow : s.flags.overflow = false
  progEnd : s.progEnd ≤ 131071

/-- HALTED of R98. -/
def State.halted (s : State) : Prop := s.running = false

/-- The run of the host's loop from `s` ends within the fuel, and ends by HLT (R157). -/
def safeRun (c : Config) (fuel : Nat) (s : State) : Prop :=
  (runUntilHalt c fuel s).endedCleanly = true

end Sys2Proof.Machine
end

