-- ==== Sys2Proof/Certificates/Slice0/Obligations.lean ====
section
/-! DEFINITION. The statements for the provers. The predicates under `Sys2Proof.Claims` say in plain
arithmetic on natural numbers what an instruction does; the obligations say that `exec`, `step`, the
Encoder and the Decoder do it. Clauses about encodings use the opcode bytes of decision D2, the mode
byte layout of D3 and the IMM_DEST halt of D14, which are the spec's own choices (log entries 1, 3). -/

namespace Sys2Proof.Claims

open Sys2Proof.Machine

/-! ## What an instruction leaves behind -/

/-- `r` is the value of operand 0's place afterwards, the place being computed from the registers
before; every other register and every other byte of memory is as before (R48, R101). -/
def ResultAt (s t : State) (p : Operand) (r : Nat) : Prop :=
  match p with
  | .reg d =>
    (t.getReg d).toNat = r ∧ (∀ k, k ≠ d → t.getReg k = s.getReg k) ∧
      ∀ a, t.readMem a = s.readMem a
  | .mem m =>
    (t.readMem (s.effAddr m)).toNat = r ∧ (∀ a, a ≠ s.effAddr m → t.readMem a = s.readMem a) ∧
      ∀ k, t.getReg k = s.getReg k
  | .imm _ => False

/-- Neither a register nor a byte of memory differs. -/
def NothingWritten (s t : State) : Prop :=
  (∀ k, t.getReg k = s.getReg k) ∧ ∀ a, t.readMem a = s.readMem a

/-- `SetZS(r)` as R104 words it; `C` and `O` keep their values. -/
def FlagsFrom (s t : State) (r : Nat) : Prop :=
  t.flags.zero = decide (r = 0) ∧ t.flags.sign = decide (128 ≤ r) ∧
    t.flags.carry = s.flags.carry ∧ t.flags.overflow = s.flags.overflow

/-- `pc` is the sequential successor (R12). -/
def PcAfter (s t : State) (len : Nat) : Prop := t.pc.toNat = (s.pc.toNat + len) % 65536

/-- The state a halting step leaves (R201). -/
def haltOf (s : State) : State := { s with running := false, pc := s.pc + 1 }

/-- The whole effect of an instruction that writes `r` to operand 0 and sets the flags from it. -/
def Completes (i : Instr) (p : Operand) (r draws : Nat) (s : State) : Prop :=
  ∃ t, exec i s = .next t ∧ ResultAt s t p r ∧ FlagsFrom s t r ∧ PcAfter s t i.length ∧
    t.sp = s.sp ∧ t.running = s.running ∧ t.progEnd = s.progEnd ∧ t.draws = s.draws + draws

/-- An immediate operand 0 where it would be written: the encoding does not decode, and the meaning
is the halt. -/
def RejectsImmediate (i : Instr) (s : State) : Prop :=
  (∀ rest, decode (encode i ++ rest) = .error .immDest) ∧ exec i s = .next (haltOf s)

/-- A format B instruction that writes operand 0: its encoding, its effect with result
`f (operand 0) (operand 1)`, and what an immediate operand 0 does. -/
def WritesB (op : Byte) (mk : Operand → Operand → Instr) (f : Nat → Nat → Nat) : Prop :=
  ∀ (p q : Operand) (s : State),
    encode (mk p q) = op :: modeB p q :: (operandBytes p ++ operandBytes q) ∧
    4 ≤ (mk p q).length ∧ (mk p q).length ≤ 8 ∧
    (p.writable = true → modeB p q ∈ ([0x00, 0x04, 0x08, 0x02, 0x06, 0x0A] : List Byte)) ∧
    (p.writable = true → s.mem.wf →
      Completes (mk p q) p (f (s.readOp p).toNat (s.readOp q).toNat) 0 s) ∧
    (p.writable = false → RejectsImmediate (mk p q) s)

/-- The same for format U. -/
def WritesU (op : Byte) (mk : Operand → Instr) (f : State → Nat → Nat) (draws : Nat) : Prop :=
  ∀ (p : Operand) (s : State),
    encode (mk p) = op :: modeU p :: operandBytes p ∧
    3 ≤ (mk p).length ∧ (mk p).length ≤ 5 ∧
    (p.writable = true → modeU p ∈ ([0x00, 0x02] : List Byte)) ∧
    (p.writable = true → s.mem.wf → Completes (mk p) p (f s (s.readOp p).toNat) draws s) ∧
    (p.writable = false → RejectsImmediate (mk p) s)

/-- The same for format US; the result depends on the count. -/
def WritesUS (op : Byte) (mk : Operand → Count → Instr) (f : Nat → Nat → Nat) : Prop :=
  ∀ (p : Operand) (count : Count) (s : State),
    encode (mk p count) = op :: modeU p :: (operandBytes p ++ [BitVec.ofNat 8 count.val]) ∧
    4 ≤ (mk p count).length ∧ (mk p count).length ≤ 6 ∧
    (p.writable = true → modeU p ∈ ([0x00, 0x02] : List Byte)) ∧
    (p.writable = true → s.mem.wf →
      Completes (mk p count) p (f (s.readOp p).toNat count.val) 0 s) ∧
    (p.writable = false → RejectsImmediate (mk p count) s)

/-- A format J encoding: the opcode byte, the low and the high byte of the target (R44, R69). -/
def EncodesJ (op : Byte) (i : Instr) (target : Addr) : Prop :=
  encode i = [op, BitVec.ofNat 8 (target.toNat % 256), BitVec.ofNat 8 (target.toNat / 256)] ∧
    i.length = 3

/-! ## Tables over the whole instruction set -/

/-- The operand an instruction writes (R72). -/
def destOf : Instr → Option Operand
  | .mov p _ => some p
  | .add p _ => some p
  | .sub p _ => some p
  | .and p _ => some p
  | .or p _ => some p
  | .xor p _ => some p
  | .inc p => some p
  | .dec p => some p
  | .not p => some p
  | .shl p _ => some p
  | .shr p _ => some p
  | .rnd p => some p
  | .pop p => some p
  | .hlt => none
  | .ret => none
  | .cmp _ _ => none
  | .push _ => none
  | .jmp _ => none
  | .jz _ => none
  | .jnz _ => none
  | .call _ => none

/-- The register an instruction may change. -/
def destReg (i : Instr) : Option Reg :=
  match destOf i with
  | some (.reg r) => some r
  | _ => none

/-- The address an instruction stores to (R47): the address of a memory destination, or the stack
slot of PUSH and CALL. -/
def storeAddr (i : Instr) (s : State) : Option Addr :=
  match i with
  | .push _ => some (s.sp - 1)
  | .call _ => some (s.sp - 1)
  | i =>
    match destOf i with
    | some (.mem m) => some (s.effAddr m)
    | _ => none

/-- The 8-bit result whose zero and sign the flags take (R28), for the thirteen flag writers. -/
def resultOf (s : State) : Instr → Option Nat
  | .mov _ q => some (s.readOp q).toNat
  | .add p q => some (((s.readOp p).toNat + (s.readOp q).toNat) % 256)
  | .sub p q => some (((s.readOp p).toNat + 256 - (s.readOp q).toNat) % 256)
  | .cmp p q => some (((s.readOp p).toNat + 256 - (s.readOp q).toNat) % 256)
  | .inc p => some (((s.readOp p).toNat + 1) % 256)
  | .dec p => some (((s.readOp p).toNat + 255) % 256)
  | .and p q => some ((s.readOp p).toNat &&& (s.readOp q).toNat)
  | .or p q => some ((s.readOp p).toNat ||| (s.readOp q).toNat)
  | .xor p q => some ((s.readOp p).toNat ^^^ (s.readOp q).toNat)
  | .not p => some (255 - (s.readOp p).toNat)
  | .shl p count => some (((s.readOp p).toNat * 2 ^ count.val) % 256)
  | .shr p count => some ((s.readOp p).toNat / 2 ^ count.val)
  | .rnd _ => some (Config.entropy s.draws).toNat
  | .push _ => none
  | .pop _ => none
  | .jmp _ => none
  | .jz _ => none
  | .jnz _ => none
  | .call _ => none
  | .ret => none
  | .hlt => none

/-- `sp` after an instruction (R24, R25). -/
def spAfter (s : State) : Instr → Nat
  | .push _ => (s.sp.toNat + 65535) % 65536
  | .call _ => (s.sp.toNat + 65535) % 65536
  | .pop _ => (s.sp.toNat + 1) % 65536
  | .ret => (s.sp.toNat + 1) % 65536
  | _ => s.sp.toNat

/-- `pc` after an instruction (R26): the target of a taken transfer, else the successor. -/
def pcAfter (s : State) : Instr → Nat
  | .jmp target => target.toNat
  | .call target => target.toNat
  | .jz target => if s.flags.zero then target.toNat else (s.pc.toNat + 3) % 65536
  | .jnz target => if s.flags.zero then (s.pc.toNat + 3) % 65536 else target.toNat
  | .ret => (s.readMem s.sp).toNat
  | i => (s.pc.toNat + i.length) % 65536

/-! ## Relations between states and sequences of instructions -/

/-- Equal but for the sign, carry and overflow flags and `prog_end`. -/
def SameButUnread (s t : State) : Prop :=
  s.regs = t.regs ∧ s.sp = t.sp ∧ s.pc = t.pc ∧ s.flags.zero = t.flags.zero ∧
    s.running = t.running ∧ s.mem = t.mem ∧ s.draws = t.draws

/-- Push operands one after the other; the bytes pushed, in order, and the state reached. -/
def pushAll : List Operand → State → Option (List Byte × State)
  | [], s => some ([], s)
  | p :: ps, s =>
    match exec (.push p) s with
    | .next t => (pushAll ps t).map (fun r => (s.readOp p :: r.1, r.2))
    | _ => none

/-- Pop into registers one after the other; the bytes received, in order, and the state reached. -/
def popAll : List Reg → State → Option (List Byte × State)
  | [], s => some ([], s)
  | r :: rs, s =>
    match exec (.pop (.reg r)) s with
    | .next t => (popAll rs t).map (fun x => (t.getReg r :: x.1, x.2))
    | _ => none

/-- A listing from `a` (R191 to R194): entries follow each other without a gap from `a` up to `stop`
or to the first HLT, each shows the bytes of memory it stands for, and an instruction that fits is
one entry of the length the Machine would consume. -/
def Covers (c : Config) (m : Memory) (stop : Nat) : Nat → List ListingEntry → Prop
  | a, [] => a = stop
  | a, e :: es =>
    e.address = a ∧ 1 ≤ e.raw.length ∧ a + e.raw.length ≤ stop ∧
    (∀ k, (h : k < e.raw.length) → e.raw[k] = m.read (a + k)) ∧
    (∀ i len, decodeAt c.opcode m a = .ok (i, len) → a + len ≤ stop →
      e.raw.length = len ∧ e.text = instrText c i) ∧
    ((∀ i len, decodeAt c.opcode m a = .ok (i, len) → stop < a + len) →
      e.raw.length = 1 ∧ e.text = ['D', 'B', ' '] ++ hexByteText (m.read a)) ∧
    ((∃ len, decodeAt c.opcode m a = .ok (.hlt, len)) → es = []) ∧
    ((¬ ∃ len, decodeAt c.opcode m a = .ok (.hlt, len)) → Covers c m stop (a + e.raw.length) es)

/-- The bytes a list of items occupies (R177). -/
def itemsSize (items : List AsmItem) : Nat := (items.map (fun item => asmLength item.instr)).sum

/-- The items that stand on lines before line `ln`. -/
def itemsBefore (items : List AsmItem) (ln : Nat) : List AsmItem :=
  items.filter (fun item => decide (item.line < ln))

/-- What a line holds beside the label it may define (R164). -/
def instrPart (line : Text) : Text :=
  match labelDefinition line with
  | some (_, rest) => rest
  | none => line

/-- The lines that hold an instruction. -/
def instrLines (source : Text) : List (Nat × Text) :=
  (sourceLines source).filter (fun l => decide (instrPart l.2 ≠ []))

/-- The operand Pass 2 makes of a parsed one: a literal modulo 256, a label's address modulo 256
(R169, R174, R178). -/
def OperandLinked (tab : SymTab) (p' : Operand) : AsmOperand → Prop
  | .reg r => p' = .reg r
  | .mem m => p' = .mem m
  | .ref (.value v) => ∃ b : Byte, p' = .imm b ∧ (b.toNat : Int) = v % 256
  | .ref (.label name) => ∃ (a : Nat) (b : Byte), (name, a) ∈ tab ∧ p' = .imm b ∧ b.toNat = a % 256

/-- The address Pass 2 makes of a jump target: the number or the label's address modulo 65536 (R172,
R178). -/
def TargetLinked (tab : SymTab) (target : Addr) : Ref → Prop
  | .value v => (target.toNat : Int) = v % 65536
  | .label name => ∃ a : Nat, (name, a) ∈ tab ∧ target.toNat = a % 65536

/-- The instruction Pass 2 makes of a parsed one. -/
def InstrLinked (tab : SymTab) (i : Instr) : AsmInstr → Prop
  | .z o => i = instrZ o
  | .j o target => ∃ t, TargetLinked tab t target ∧ i = instrJ t o
  | .u o p => ∃ p', OperandLinked tab p' p ∧ i = instrU p' o
  | .us o p count => ∃ p', OperandLinked tab p' p ∧ i = instrUS p' count o
  | .b o p q => ∃ p' q', OperandLinked tab p' p ∧ OperandLinked tab q' q ∧ i = instrB p' q' o

/-- What the Encoder reads an operand's listing text back as. -/
def asAsmOperand : Operand → AsmOperand
  | .reg r => .reg r
  | .imm v => .ref (.value (v.toNat : Int))
  | .mem m => .mem m

end Sys2Proof.Claims

section

open Sys2Proof Sys2Proof.Machine Sys2Proof.Claims

/-! ## Every instruction: result, frame and completion -/

/-- R110. The model's choices: spec decisions D2, D3, D4, D6, D7, D8, D14, D22, D26 (log entries 1,
2, 3, 11, 12, 14); what exec answers for an immediate operand 0 is log entry 11 (DEDUCED). -/
def Obligations.MovCopiesSource : Prop := WritesB 0x10 .mov (fun _ v => v)

/-- R115. The model's choices: spec decisions D2, D3, D4, D6, D7, D8, D14, D22, D26 (log entries 1,
2, 3, 11, 12, 14); what exec answers for an immediate operand 0 is log entry 11 (DEDUCED). -/
def Obligations.AddWrapsModulo256 : Prop := WritesB 0x11 .add (fun u v => (u + v) % 256)

/-- R116: operand 0 minus operand 1. The model's choices: spec decisions D2, D3, D4, D6, D7, D8,
D14, D22, D26 (log entries 1, 2, 3, 11, 12, 14); what exec answers for an immediate operand 0 is log
entry 11 (DEDUCED). -/
def Obligations.SubWrapsModulo256 : Prop := WritesB 0x12 .sub (fun u v => (u + 256 - v) % 256)

/-- R117. The model's choices: spec decisions D2, D3, D4, D6, D7, D8, D14, D22 (log entries 1, 2, 3,
11, 12); what exec answers for an immediate operand 0 is log entry 11 (DEDUCED). -/
def Obligations.IncWrapsModulo256 : Prop := WritesU 0x20 .inc (fun _ u => (u + 1) % 256) 0

/-- R118. The model's choices: spec decisions D2, D3, D4, D6, D7, D8, D14, D22 (log entries 1, 2, 3,
11, 12); what exec answers for an immediate operand 0 is log entry 11 (DEDUCED). -/
def Obligations.DecWrapsModulo256 : Prop := WritesU 0x21 .dec (fun _ u => (u + 255) % 256) 0

/-- R119: the flags of the difference and nothing else but `pc`; any operand 0. The model's choices:
spec decisions D2, D3, D4, D8, D26 (log entries 1, 2, 14). -/
def Obligations.CmpSetsFlagsOnly : Prop :=
  ∀ (p q : Operand) (s : State),
    encode (.cmp p q) = 0x13 :: modeB p q :: (operandBytes p ++ operandBytes q) ∧
    4 ≤ (Instr.cmp p q).length ∧ (Instr.cmp p q).length ≤ 8 ∧
    modeB p q ∈ ([0x00, 0x04, 0x08, 0x02, 0x06, 0x0A, 0x01, 0x05, 0x09] : List Byte) ∧
    ∃ t, exec (.cmp p q) s = .next t ∧ NothingWritten s t ∧
      FlagsFrom s t (((s.readOp p).toNat + 256 - (s.readOp q).toNat) % 256) ∧
      (t.flags.zero = true ↔ s.readOp p = s.readOp q) ∧
      PcAfter s t (Instr.cmp p q).length ∧ t.sp = s.sp ∧ t.running = s.running ∧
      t.progEnd = s.progEnd ∧ t.draws = s.draws

/-- R125. The model's choices: spec decisions D2, D3, D4, D6, D7, D8, D14, D22, D26 (log entries 1,
2, 3, 11, 12, 14); what exec answers for an immediate operand 0 is log entry 11 (DEDUCED). -/
def Obligations.AndIsBitwise : Prop := WritesB 0x14 .and (fun u v => u &&& v)

/-- R126. The model's choices: spec decisions D2, D3, D4, D6, D7, D8, D14, D22, D26 (log entries 1,
2, 3, 11, 12, 14); what exec answers for an immediate operand 0 is log entry 11 (DEDUCED). -/
def Obligations.OrIsBitwise : Prop := WritesB 0x15 .or (fun u v => u ||| v)

/-- R127. The model's choices: spec decisions D2, D3, D4, D6, D7, D8, D14, D22, D26 (log entries 1,
2, 3, 11, 12, 14); what exec answers for an immediate operand 0 is log entry 11 (DEDUCED). -/
def Obligations.XorIsBitwise : Prop := WritesB 0x16 .xor (fun u v => u ^^^ v)

/-- R128. The model's choices: spec decisions D2, D3, D4, D6, D7, D8, D14, D22 (log entries 1, 2, 3,
11, 12); what exec answers for an immediate operand 0 is log entry 11 (DEDUCED). -/
def Obligations.NotInvertsEveryBit : Prop := WritesU 0x22 .not (fun _ u => 255 - u) 0

/-- R129 with the spec's decision D16 on the count byte. The model's choices: spec decisions D2, D3,
D4, D6, D7, D8, D14, D16, D22 (log entries 1, 2, 3, 11, 12); what exec answers for an immediate
operand 0 is log entry 11 (DEDUCED). -/
def Obligations.ShlMultipliesModulo256 : Prop :=
  WritesUS 0x23 .shl (fun u count => u * 2 ^ count % 256)

/-- R130 with the spec's decision D16 on the count byte. The model's choices: spec decisions D2, D3,
D4, D6, D7, D8, D14, D16, D22 (log entries 1, 2, 3, 11, 12); what exec answers for an immediate
operand 0 is log entry 11 (DEDUCED). -/
def Obligations.ShrDividesLogically : Prop := WritesUS 0x24 .shr (fun u count => u / 2 ^ count)

/-- R135, R136 with the spec's decision D15: the next byte of the free input, and one draw consumed.
The counter is the model's own (log entry 6). The model's choices: spec decisions D2, D3, D4, D6,
D7, D8, D14, D15, D22 (log entries 1, 2, 3, 6, 11, 12); what exec answers for an immediate operand 0
is log entry 11 (DEDUCED). -/
def Obligations.RndReceivesNextEntropyByte : Prop :=
  WritesU 0x25 .rnd (fun s _ => (Config.entropy s.draws).toNat) 1

/-- R140: any operand; the byte goes to `sp - 1`, which becomes `sp`. The model's choices: spec
decisions D2, D3, D4, D8, D22 (log entries 1, 2, 12). -/
def Obligations.PushPreDecrementsThenWrites : Prop :=
  ∀ (p : Operand) (s : State),
    encode (.push p) = 0x26 :: modeU p :: operandBytes p ∧
    3 ≤ (Instr.push p).length ∧ (Instr.push p).length ≤ 5 ∧
    modeU p ∈ ([0x00, 0x01, 0x02] : List Byte) ∧
    (s.mem.wf → ∃ t, exec (.push p) s = .next t ∧
      t.sp = s.sp - 1 ∧ t.sp.toNat = (s.sp.toNat + 65535) % 65536 ∧
      t.readMem (s.sp - 1) = s.readOp p ∧
      (∀ a, a ≠ s.sp - 1 → t.readMem a = s.readMem a) ∧
      (∀ k, t.getReg k = s.getReg k) ∧ t.flags = s.flags ∧
      PcAfter s t (Instr.push p).length ∧ t.running = s.running ∧
      t.progEnd = s.progEnd ∧ t.draws = s.draws)

/-- R141: the byte at the old `sp` goes to operand 0, whose address is computed before the pop. The
model's choices: spec decisions D2, D3, D4, D6, D7, D8, D14, D22 (log entries 1, 2, 3, 11, 12); what
exec answers for an immediate operand 0 is log entry 11 (DEDUCED). -/
def Obligations.PopReadsThenPostIncrements : Prop :=
  ∀ (p : Operand) (s : State),
    encode (.pop p) = 0x27 :: modeU p :: operandBytes p ∧
    3 ≤ (Instr.pop p).length ∧ (Instr.pop p).length ≤ 5 ∧
    (p.writable = true → modeU p ∈ ([0x00, 0x02] : List Byte)) ∧
    (p.writable = true → s.mem.wf → ∃ t, exec (.pop p) s = .next t ∧
      ResultAt s t p (s.readMem s.sp).toNat ∧
      t.sp.toNat = (s.sp.toNat + 1) % 65536 ∧ t.flags = s.flags ∧
      PcAfter s t (Instr.pop p).length ∧ t.running = s.running ∧
      t.progEnd = s.progEnd ∧ t.draws = s.draws) ∧
    (p.writable = false → RejectsImmediate (.pop p) s)

/-- R145. The model's choices: spec decision D2 (log entry 1). -/
def Obligations.JmpSetsPcToTarget : Prop :=
  ∀ (target : Addr) (s : State),
    EncodesJ 0x30 (.jmp target) target ∧ exec (.jmp target) s = .next { s with pc := target }

/-- R146. The model's choices: spec decisions D2, D8 (log entries 1, 2). -/
def Obligations.JzJumpsIffZero : Prop :=
  ∀ (target : Addr) (s : State),
    EncodesJ 0x31 (.jz target) target ∧
    (s.flags.zero = true → exec (.jz target) s = .next { s with pc := target }) ∧
    (s.flags.zero = false → exec (.jz target) s = .next { s with pc := s.pc + 3 })

/-- R147. The model's choices: spec decisions D2, D8 (log entries 1, 2). -/
def Obligations.JnzJumpsIffNotZero : Prop :=
  ∀ (target : Addr) (s : State),
    EncodesJ 0x32 (.jnz target) target ∧
    (s.flags.zero = false → exec (.jnz target) s = .next { s with pc := target }) ∧
    (s.flags.zero = true → exec (.jnz target) s = .next { s with pc := s.pc + 3 })

/-- R150 with the spec's decision D13: one byte, the low 8 bits of `a + 3`. The model's choices:
spec decisions D2, D13 (log entries 1, 7). -/
def Obligations.CallPushesLowByteOfReturn : Prop :=
  ∀ (target : Addr) (s : State),
    EncodesJ 0x33 (.call target) target ∧
    (s.mem.wf → ∃ t, exec (.call target) s = .next t ∧ t.pc = target ∧
      t.sp.toNat = (s.sp.toNat + 65535) % 65536 ∧
      (t.readMem (s.sp - 1)).toNat = (s.pc.toNat + 3) % 256 ∧
      (∀ a, a ≠ s.sp - 1 → t.readMem a = s.readMem a) ∧
      (∀ k, t.getReg k = s.getReg k) ∧ t.flags = s.flags ∧ t.running = s.running ∧
      t.progEnd = s.progEnd ∧ t.draws = s.draws)

/-- R151 with the spec's decision D13: the popped byte, zero-extended. The model's choices: spec
decisions D2, D5, D13 (log entries 1, 7). -/
def Obligations.RetZeroExtendsPoppedByte : Prop :=
  ∀ s : State, encode .ret = [0x01] ∧
    ∃ t, exec .ret s = .next t ∧ t.pc.toNat = (s.readMem s.sp).toNat ∧
      t.sp.toNat = (s.sp.toNat + 1) % 65536 ∧ NothingWritten s t ∧ t.flags = s.flags ∧
      t.running = s.running ∧ t.progEnd = s.progEnd ∧ t.draws = s.draws

/-- R155: `running` and `pc` change and nothing else, and every further step does nothing. The
model's choices: spec decisions D2, D5, D7, D12 (log entries 1, 3, 9). -/
def Obligations.HltClearsRunningOnly : Prop :=
  ∀ s : State, encode .hlt = [0x00] ∧ exec .hlt s = .next (haltOf s) ∧
    step (haltOf s) = .next (haltOf s) ∧ continueSignal (exec .hlt s) = false

/-! ## Operands and flags -/

/-- R100. -/
def Obligations.OperandReadsByKind : Prop :=
  ∀ s : State, (∀ r, s.readOp (.reg r) = s.getReg r) ∧ (∀ v, s.readOp (.imm v) = v) ∧
    ∀ m, s.readOp (.mem m) = s.readMem (s.effAddr m)

/-- R99 with the spec's decisions D4 and D23: the address of each mode as a number, and its reach.
The model's choices: spec decisions D4, D23 (log entry 13). -/
def Obligations.EffectiveAddressByMode : Prop :=
  ∀ s : State,
    (∀ a, s.effAddr (.abs a) = a) ∧
    (∀ r, (s.effAddr (.ind r)).toNat = (s.getReg r).toNat) ∧
    (∀ r off, ((s.effAddr (.off r off)).toNat : Int) =
      (((s.getReg r).toNat : Int) + off.toInt) % 65536) ∧
    ∀ r off, (s.effAddr (.off r off)).toNat ≤ 0x017E ∨ 0xFF80 ≤ (s.effAddr (.off r off)).toNat

/-- R104. -/
def Obligations.SetZSFollowsTheResult : Prop :=
  ∀ (s : State) (r : Byte),
    ((s.setZS r).flags.zero = true ↔ r.toNat = 0) ∧
    ((s.setZS r).flags.sign = true ↔ 128 ≤ r.toNat) ∧
    (s.setZS r).flags.carry = s.flags.carry ∧ (s.setZS r).flags.overflow = s.flags.overflow

/-- R28: the thirteen flag writers set `Z` and `S` from their result alone, every other instruction
and every step that leaves the Machine halted, a step on a halted Machine (D12) included, leaves all
four flags. The model's choices: spec decisions D12, D15, D16 (log entries 1, 6, 9). -/
def Obligations.FlagsWrittenByExactlyThirteen : Prop :=
  (∀ (i : Instr) (s t : State), i.wellFormed = true → exec i s = .next t →
    match resultOf s i with
    | some r => FlagsFrom s t r
    | none => t.flags = s.flags) ∧
  ∀ s t : State, step s = .next t → t.running = false → t.flags = s.flags

/-! ## Frames over the whole instruction set -/

/-- R21, R47: only the destination register may change. The model's choices: spec decisions D6, D14
(log entries 3, 11). -/
def Obligations.OnlyDestinationRegisterChanges : Prop :=
  ∀ (i : Instr) (s t : State) (k : Reg), exec i s = .next t → destReg i ≠ some k →
    t.getReg k = s.getReg k

/-- R47, R48: every byte of memory but the one at the address the instruction stores to reads as
before; where it stores nothing, every byte does. The model's choices: spec decisions D6, D14, D22
(log entries 3, 11, 12). -/
def Obligations.OnlyStoredByteChanges : Prop :=
  ∀ (i : Instr) (s t : State) (a : Addr), exec i s = .next t → storeAddr i s ≠ some a →
    t.readMem a = s.readMem a

/-- R24, R25: only PUSH, POP, CALL and RET move `sp`, by one, modulo 65536. -/
def Obligations.OnlyStackInstructionsMoveStackPointer : Prop :=
  ∀ (i : Instr) (s t : State), i.wellFormed = true → exec i s = .next t →
    t.sp.toNat = spAfter s i

/-- R26 with the spec's decisions D8 (wrap) and D13: where `pc` goes. The model's choices: spec
decisions D7, D8, D13 (log entries 2, 3, 7). -/
def Obligations.PcGoesToTargetOrSuccessor : Prop :=
  ∀ (i : Instr) (s t : State), i.wellFormed = true → exec i s = .next t →
    t.pc.toNat = pcAfter s i

/-- R27, R30, R31: no canonical instruction writes `C`, `O` or `prog_end`, none sets `running`, of
them only HLT clears it, and only RND consumes a draw (the model's counter, log entry 6). The model's choices:
spec decisions D15, D21, D28 (log entries 6, 14). -/
def Obligations.CanonicalInstructionsKeepReservedState : Prop :=
  ∀ (i : Instr) (s t : State), i.wellFormed = true → exec i s = .next t →
    t.flags.carry = s.flags.carry ∧ t.flags.overflow = s.flags.overflow ∧
    t.progEnd = s.progEnd ∧ (t.running = (s.running && decide (i ≠ .hlt))) ∧
    t.draws = s.draws + (match i with | .rnd _ => 1 | _ => 0)

/-! ## The step -/

/-- R91: a running Machine executes the instruction its memory decodes to. The model's choices: spec
decision D8 (log entry 2). -/
def Obligations.StepRunsTheDecodedInstruction : Prop :=
  ∀ (s : State) (i : Instr) (len : Nat), s.running = true →
    decodeAt Config.machine.opcode s.mem s.pc.toNat = .ok (i, len) → step s = exec i s

/-- R92 with the spec's decision D7: whatever does not decode halts, in one state for all causes
(log entry 3). The model's choices: spec decisions D6, D7, D14 (log entry 3). -/
def Obligations.InvalidEncodingHalts : Prop :=
  ∀ (s : State) (cause : HaltCause), s.running = true →
    decodeAt Config.machine.opcode s.mem s.pc.toNat = .error cause →
    step s = .next (haltOf s) ∧ continueSignal (step s) = false

/-- R90 with the spec's decision D12. The model's choices: spec decision D12 (log entry 9). -/
def Obligations.HaltedStepChangesNothing : Prop :=
  ∀ s : State, s.running = false → step s = .next s ∧ continueSignal (step s) = false

/-- R97, R200: no state makes a step fault or refuse. The model's choices: spec decisions D6, D7,
D8, D12, D14 (log entries 2, 3, 9). -/
def Obligations.EveryStepAnswersAState : Prop := ∀ s : State, ∃ t, step s = .next t

/-- R90: `continue` is true exactly when a running Machine executed a canonical instruction other
than HLT. The model's choices: spec decisions D6, D8, D12, D14 (log entries 2, 3, 9). -/
def Obligations.ContinueIffCanonicalAndNotHlt : Prop :=
  ∀ s : State, continueSignal (step s) = true ↔
    s.running = true ∧
      ∃ i len, decodeAt Config.machine.opcode s.mem s.pc.toNat = .ok (i, len) ∧ i ≠ .hlt

/-- R201, R204 with the spec's decision D7: a step that halts changes `running` and `pc` only. The
model's choices: spec decisions D6, D7, D14 (log entry 3). -/
def Obligations.HaltsArePrecise : Prop :=
  ∀ s t : State, s.running = true → step s = .next t → t.running = false → t = haltOf s

/-- R156: an opcode byte outside the table leaves the state HLT would have left. The model's
choices: spec decision D7 (log entry 3). -/
def Obligations.UnknownOpcodeActsAsHlt : Prop :=
  ∀ s : State, s.running = true →
    (∀ m : Mnemonic, Config.machine.opcode m ≠ s.readMem s.pc) → step s = exec .hlt s

/-- R202: the cause of a halt can be worked out from the state it leaves. The model's choices: spec
decisions D6, D7, D14, D27 (log entry 3). -/
def Obligations.HaltCauseIsRecoverable : Prop :=
  ∀ s t : State, s.running = true → step s = .next t → t.running = false →
    ∃ cause, haltCauseUnder Config.machine s = some cause ∧
      lastHaltCause Config.machine t = some cause

/-- R43, R93 with the spec's decision D8: no instruction with a byte past address 65535 decodes. The
model's choices: spec decision D8 (log entry 2). -/
def Obligations.NoInstructionCrossesTheEnd : Prop :=
  ∀ (t : OpcodeMap) (m : Memory) (a : Nat) (i : Instr) (len : Nat),
    decodeAt t m a = .ok (i, len) → a + len ≤ 65536

/-- R94 with the spec's decision D8, the cautious value of `PC_WRAP`: a running step whose instruction
ends at the last byte of memory faults unless the instruction transfers control or is HLT; then, and
wherever the instruction ends elsewhere, it executes it. The model's choices: spec decision D8, and
the reading that HLT does not fall through (log entry 2). -/
def Obligations.CautiousPcWrapFaults : Prop :=
  ∀ (c : Config) (s : State) (i : Instr) (len : Nat), c.pcWrap = .fault → s.running = true →
    decodeAt c.opcode s.mem s.pc.toNat = .ok (i, len) →
    (s.pc.toNat + len = 65536 → transfersControl i s = false → i ≠ .hlt →
      stepUnder c s = .fault .pcPastEnd) ∧
    (s.pc.toNat + len = 65536 → transfersControl i s = true → stepUnder c s = exec i s) ∧
    (s.pc.toNat + len = 65536 → i = .hlt → stepUnder c s = .next (haltOf s)) ∧
    (s.pc.toNat + len ≠ 65536 → stepUnder c s = exec i s)

/-- U2 to U8: what the cautious settings allow, the plain ones do. The model's choices: spec
decisions D6, D8, D14 (log entries 2, 3). -/
def Obligations.CautiousStepsRefineSteps : Prop :=
  ∀ (c : Config) (s t : State), stepUnder c s = .next t →
    stepUnder { c with pcWrap := .wrap, nonCanonical := .halt } s = .next t

/-- R29, R31: what `S`, `C`, `O` and `prog_end` hold has no influence on the rest of the state. The
model's choices: spec decisions D21, D28 (log entry 14). -/
def Obligations.UnreadStateHasNoInfluence : Prop :=
  ∀ s s' t : State, SameButUnread s s' → step s = .next t →
    ∃ t', step s' = .next t' ∧ SameButUnread t t'

/-- R137: a step depends on the entropy source only through the byte an RND draws. The counter is
the model's own (log entry 6). The model's choices: spec decision D15 (log entry 6). -/
def Obligations.EntropyMattersOnlyToRnd : Prop :=
  ∀ (s t : State) (n : Nat),
    ((∀ p len, decodeAt Config.machine.opcode s.mem s.pc.toNat ≠ .ok (.rnd p, len)) ∨
      Config.entropy n = Config.entropy s.draws) →
    step s = .next t →
    ∃ t', step { s with draws := n } = .next t' ∧ { t' with draws := t.draws } = t

/-! ## Encoding -/

/-- R87, one direction: under every injective opcode map, decoding the encoding of a canonical
instruction gives it back with its length, whatever bytes follow. The model's choices: spec
decisions D3, D4, D5, D6, D14, D16, D26 (log entries 1, 3, 14). -/
def Obligations.DecodeOfEncode : Prop :=
  ∀ (t : OpcodeMap) (i : Instr) (rest : List Byte), Function.Injective t →
    i.wellFormed = true → decodeWith t (encodeWith t i ++ rest) = .ok (i, i.length)

/-- R87, the other: whatever decodes is canonical, and its encoding is the bytes consumed. The
model's choices: spec decisions D3, D4, D5, D6, D14, D16, D26 (log entries 1, 3, 14). -/
def Obligations.EncodeOfDecode : Prop :=
  ∀ (t : OpcodeMap) (bs : List Byte) (i : Instr) (len : Nat),
    decodeWith t bs = .ok (i, len) →
    i.wellFormed = true ∧ len = i.length ∧ len ≤ bs.length ∧ encodeWith t i = bs.take len

/-- R79: the decoder reads the instruction's own bytes and no further. The model's choices: spec
decisions D3, D4, D5, D16 (log entry 1). -/
def Obligations.DecodeNeverLooksAhead : Prop :=
  ∀ (t : OpcodeMap) (bs extra : List Byte) (i : Instr) (len : Nat),
    decodeWith t bs = .ok (i, len) → decodeWith t (bs.take len ++ extra) = .ok (i, len)

/-- R81 `FETCH_PAST_END`: a canonical instruction cut short anywhere does not decode. The model's
choices: spec decisions D3, D4, D5, D6, D16 (log entries 1, 3). -/
def Obligations.TruncatedInstructionIsPastEnd : Prop :=
  ∀ (t : OpcodeMap) (i : Instr) (n : Nat), Function.Injective t → i.wellFormed = true →
    n < i.length → decodeWith t ((encodeWith t i).take n) = .error .fetchPastEnd

/-- Bytes of 30_encoding.md and 41_move.md R111, bit by bit, under the default opcode map (D2). The
model's choices: spec decisions D2, D3, D4, D16 (log entry 1). -/
def Obligations.SampleWordsDecode : Prop :=
  decode [0b00010000, 0b00000100, 0b00000000, 0b01001000] = .ok (.mov (.reg 0) (.imm 72), 4) ∧
  decode [0b00010000, 0b00001000, 0b00000000, 0b00000010, 0b00000001, 0b11111111] =
    .ok (.mov (.reg 0) (.mem (.off 1 0xFF)), 6) ∧
  decode [0b00100000, 0b00000010, 0b00000000, 0b01010000, 0b00000000] =
    .ok (.inc (.mem (.abs 0x0050)), 5) ∧
  decode [0b00100011, 0b00000000, 0b00000000, 0b00000001] = .ok (.shl (.reg 0) 1, 4) ∧
  decode [0b00110000, 0b00100110, 0b00000000] = .ok (.jmp 0x0026, 3)

/-! ## Reset, load and the invariant -/

/-- R34, R220 with the spec's decisions D9 and D10: `reset()` from any state, under any
configuration; the entropy source is not rewound. The model's choices: spec decisions D9, D10, D15
(log entries 4, 6). -/
def Obligations.ResetSetsEveryField : Prop :=
  ∀ (c : Config) (s : State), ∃ t, transact c .reset s = .next t ∧
    (∀ r, t.getReg r = 0) ∧ t.sp = c.spReset ∧ t.pc = 0 ∧
    t.flags = { zero := false, sign := false, carry := false, overflow := false } ∧
    t.running = true ∧ (∀ a, t.readMem a = 0) ∧ t.progEnd = 0 ∧ t.draws = s.draws

/-- R221 with the spec's decision D11: the bytes land from `base` on with wrap-around, `pc` and
`prog_end` are set, and nothing else changes. The model's choices: spec decisions D11, D28 (log
entries 10, 14). -/
def Obligations.LoadProgramCopiesAtBase : Prop :=
  ∀ (bytes : List Byte) (base : Nat) (s : State), s.mem.wf → base ≤ 65535 →
    bytes.length ≤ 65536 →
    ∃ t, loadProgram bytes base s = .next t ∧
      (∀ k, (h : k < bytes.length) → t.mem.read ((base + k) % 65536) = bytes[k]) ∧
      (∀ a : Addr, (∀ k < bytes.length, a.toNat ≠ (base + k) % 65536) →
        t.readMem a = s.readMem a) ∧
      t.pc.toNat = base ∧ t.progEnd = base + bytes.length ∧
      t.regs = s.regs ∧ t.sp = s.sp ∧ t.flags = s.flags ∧ t.running = s.running ∧
      t.draws = s.draws

/-- R27, R34: reset establishes the invariant. The model's choices: spec decisions D9, D21, D28 (log
entries 4, 5, 14). -/
def Obligations.ResetMeetsInvariant : Prop := State.reset.Inv

/-- R20, R27, R41: every step keeps it. The model's choices: spec decisions D21, D28 (log entries 5,
14). -/
def Obligations.StepKeepsInvariant : Prop :=
  ∀ s t : State, s.Inv → step s = .next t → t.Inv

/-- R222: so does every transaction of the host, under every configuration. The model's choices:
spec decisions D9, D11, D21, D28 (log entries 4, 5, 10, 14). -/
def Obligations.TransactionsKeepInvariant : Prop :=
  ∀ (c : Config) (x : Transaction) (s t : State), s.Inv → transact c x s = .next t → t.Inv

/-! ## Stack -/

/-- R142: N pushes of any operands, then N pops into any registers, restore `sp` and yield the
pushed bytes in reverse order. The model's choices: spec decision D22 (log entry 12). -/
def Obligations.PopsReturnPushedBytesInReverse : Prop :=
  ∀ (ps : List Operand) (rs : List Reg) (s t : State) (vs : List Byte), s.mem.wf →
    ps.length ≤ 65536 → rs.length = ps.length → pushAll ps s = some (vs, t) →
    ∃ u, popAll rs t = some (vs.reverse, u) ∧ u.sp = s.sp ∧ u.flags = s.flags

/-- R151, R152 with the spec's decision D13: a RET right after a CALL restores `sp` and comes back
to the instruction after the CALL exactly when that lies in page zero. The model's choices: spec
decision D13 (log entry 7). -/
def Obligations.RetAfterCallReturnsInPageZero : Prop :=
  ∀ (target : Addr) (s t : State), s.mem.wf → exec (.call target) s = .next t →
    ∃ u, exec .ret t = .next u ∧ u.sp = s.sp ∧
      u.pc.toNat = (s.pc.toNat + 3) % 256 ∧
      (u.pc = s.pc + 3 ↔ (s.pc.toNat + 3) % 65536 ≤ 0xFF)

/-! ## The Encoder and the Decoder -/

/-- R191 to R194 with the spec's decision D20: the listing of a range. The model's choices: spec
decisions D6, D20 (log entries 3, 16). -/
def Obligations.ListingCoversTheRange : Prop :=
  ∀ (c : Config) (m : Memory) (start stop : Nat), start ≤ stop → stop ≤ 65536 →
    Covers c m stop start (disassemble c m start stop)

/-- R176 to R180. Where Pass 1 succeeds: its items are the parsed instruction lines in order, each
at `ORIGIN` plus the lengths of the items before it; its table is exactly the label definitions in
order, each name once, with the pc Pass 1 has at that line (`ORIGIN` plus the lengths of the
instructions on the lines before); and where the source assembles, Pass 2 emits for each item the
instruction with every reference replaced by its entry of that table, in the length Pass 1 gave it.
The model's choices: spec decisions D16, D17, D18, D19 (log entry 15). -/
def Obligations.PassOneAddressesAreExact : Prop :=
  ∀ (c : Config) (origin : Nat) (source : Text) (st : PassOne),
    passOne c origin source = .ok st →
    st.pc = origin + itemsSize st.items ∧ st.pc ≤ 65536 ∧
    st.items.map (fun item => (item.line, (.ok item.instr : Except (Text × AsmErrorKind) AsmInstr))) =
      (instrLines source).map (fun l =>
        (l.1, parseInstr c (tokens (instrPart l.2)).1 (tokens (instrPart l.2)).2)) ∧
    (∀ k, (h : k < st.items.length) → st.items[k].addr = origin + itemsSize (st.items.take k)) ∧
    st.symtab = (sourceLines source).filterMap (fun l =>
      (labelDefinition l.2).map (fun d => (d.1, origin + itemsSize (itemsBefore st.items l.1)))) ∧
    (st.symtab.map Prod.fst).Nodup ∧
    ∀ p, assemble c origin source = .ok p →
      ∃ is : List Instr, p.bytes = (is.map (encodeWith c.opcode)).flatten ∧
        List.Forall₂ (fun item i => InstrLinked st.symtab i item.instr ∧
          asmLength item.instr = (encodeWith c.opcode i).length) st.items is

/-- R160, R80, R178: what the Encoder emits is a sequence of canonical encodings that fits in memory
from `ORIGIN`. The model's choices: spec decisions D14, D16, D17, D18, D19 (log entries 1, 15). -/
def Obligations.AssembledBytesAreCanonical : Prop :=
  ∀ (c : Config) (origin : Nat) (source : Text) (p : Program),
    assemble c origin source = .ok p →
    p.loadAddress = origin ∧ origin + p.bytes.length ≤ 65536 ∧
    ∃ is : List Instr, (∀ i ∈ is, i.wellFormed = true) ∧
      p.bytes = (is.map (encodeWith c.opcode)).flatten

/-- R167 to R170 and R195 with the spec's decisions D17, D18 and D20: the listing text of an operand
parses back to the operand. The model's choices: spec decisions D17, D18, D20 (log entries 15, 16). -/
def Obligations.OperandTextParsesBack : Prop :=
  ∀ p : Operand,
    parseOperand Config.machine (operandText Config.machine p) = .ok (asAsmOperand p)

/-- R196 with the spec's decisions D17, D18 and D20: the listing text of every canonical
instruction, assembled alone at 0, gives the instruction's bytes. The model's choices: spec
decisions D2, D17, D18, D20 (log entries 1, 15, 16). -/
def Obligations.InstructionTextAssemblesBack : Prop :=
  ∀ i : Instr, i.wellFormed = true →
    assemble Config.machine 0 (instrText Config.machine i) =
      .ok { bytes := encode i, loadAddress := 0 }

end
end

