-- ==== Sys2Proof/Laws/Decode.lean ====
section
/-! SUPPORT. The lengths of encodings (spec 30_encoding.md R78), and how each reading step of the
decoder acts on the bytes the encoder writes. -/

namespace Sys2Proof

/-! ## Lengths -/

@[simp] theorem addrBytes_length (a : Addr) : (addrBytes a).length = 2 := rfl

@[simp] theorem operandBytes_length (p : Operand) : (operandBytes p).length = p.length := by
  rcases p with r | v | m
  · rfl
  · rfl
  · cases m <;> rfl

theorem Operand.length_pos (p : Operand) : 1 ≤ p.length := by
  rcases p with r | v | m
  · simp [Operand.length]
  · simp [Operand.length]
  · cases m <;> simp [Operand.length]

theorem Operand.length_le (p : Operand) : p.length ≤ 3 := by
  rcases p with r | v | m
  · simp [Operand.length]
  · simp [Operand.length]
  · cases m <;> simp [Operand.length]

theorem encodeU_length (t : OpcodeMap) (o : UOp) (p : Operand) :
    (encodeU t o p).length = lengthU p := by
  simp [encodeU, lengthU]; omega

theorem encodeUS_length (t : OpcodeMap) (o : USOp) (p : Operand) (c : Count) :
    (encodeUS t o p c).length = lengthUS p := by
  simp [encodeUS, lengthUS]; omega

theorem encodeB_length (t : OpcodeMap) (o : BOp) (p q : Operand) :
    (encodeB t o p q).length = lengthB p q := by
  simp [encodeB, lengthB]; omega

/-! ## Single readings -/

@[simp] theorem fetchByte_cons (b : Byte) (bs : List Byte) : fetchByte (b :: bs) = .ok (b, bs) := rfl

@[simp] theorem fetchByte_nil : fetchByte [] = .error .fetchPastEnd := rfl

@[simp] theorem regOfByte_regByte (r : Reg) : regOfByte (regByte r) = .ok r := by
  revert r; decide

@[simp] theorem countOfByte_ofNat (c : Count) : countOfByte (BitVec.ofNat 8 c.val) = .ok c := by
  revert c; decide

@[simp] theorem addrOfBytes_extract (a : Addr) :
    addrOfBytes (a.extractLsb' 0 8) (a.extractLsb' 8 8) = a := by
  simp only [addrOfBytes]
  ext i hi
  simp only [BitVec.getElem_append, BitVec.getElem_extractLsb']
  split
  · rw [Nat.zero_add, BitVec.getLsbD_eq_getElem]
  · have h : 8 + (i - 8) = i := by omega
    rw [h, BitVec.getLsbD_eq_getElem]

@[simp] theorem tagOfMode_modeU (p : Operand) : tagOfMode (modeU p) = .ok p.tag := by
  cases h : p.tag <;> simp [modeU, h, tagBits] <;> decide

@[simp] theorem tagsOfMode_modeB (p q : Operand) : tagsOfMode (modeB p q) = .ok (p.tag, q.tag) := by
  cases h : p.tag <;> cases h' : q.tag <;> simp [modeB, h, h', tagBits] <;> decide

theorem readAddr_addrBytes (a : Addr) (rest : List Byte) :
    readAddr (addrBytes a ++ rest) = .ok (a, rest) := by
  simp [readAddr, addrBytes, bind, Except.bind, pure, Except.pure]

/-- An operand's descriptor reads back as the operand and consumes exactly its bytes. -/
theorem readOperand_operandBytes (p : Operand) (rest : List Byte) :
    readOperand p.tag (operandBytes p ++ rest) = .ok (p, rest) := by
  rcases p with r | v | m
  · simp [readOperand, Operand.tag, operandBytes, readReg, bind, Except.bind, pure, Except.pure]
  · simp [readOperand, Operand.tag, operandBytes, bind, Except.bind, pure, Except.pure]
  · cases m with
    | abs a =>
      simp [readOperand, Operand.tag, operandBytes, memBytes, readMemRef, readAddr_addrBytes, bind,
        Except.bind, pure, Except.pure]
    | ind r =>
      simp [readOperand, Operand.tag, operandBytes, memBytes, readMemRef, readReg, bind,
        Except.bind, pure, Except.pure]
    | off r o =>
      simp [readOperand, Operand.tag, operandBytes, memBytes, readMemRef, readRegOffset, bind,
        Except.bind, pure, Except.pure]

/-- A mnemonic found by an opcode byte has that opcode byte. -/
theorem opcode_of_lookup {t : OpcodeMap} {op : Byte} {m : Mnemonic}
    (h : lookupOpcode t op = some m) : t m = op := by
  have := List.find?_some h
  simpa using this

theorem Mnemonic.mem_all (m : Mnemonic) : m ∈ Mnemonic.all := by
  rcases m with o | o | o | o | o <;> cases o <;> decide

/-- Under an injective opcode map every mnemonic is found by its own opcode byte. -/
theorem lookupOpcode_self {t : OpcodeMap} (ht : Function.Injective t) (m : Mnemonic) :
    lookupOpcode t (t m) = some m := by
  cases h : lookupOpcode t (t m) with
  | none =>
    have := List.find?_eq_none.1 h m m.mem_all
    simp at this
  | some n => rw [ht (opcode_of_lookup h)]

/-- The default opcode map of R70 is injective. -/
theorem defaultOpcode_injective : Function.Injective Config.defaultOpcode := by
  intro m n h
  rcases m with o | o | o | o | o <;> rcases n with o' | o' | o' | o' | o' <;>
    cases o <;> cases o' <;> simp_all [Config.defaultOpcode]

end Sys2Proof
end

