-- ==== Sys2Proof/Laws/State.lean ====
section
/-! SUPPORT. One lemma per field per state update, true by unfolding, so that no later proof unfolds
a record update; and the read-back lemmas of registers and memory through each update. -/

namespace Sys2Proof.Machine

@[simp] theorem State.setReg_regs (s : State) (r : Reg) (v : Byte) : (s.setReg r v).regs = s.regs.set r v := rfl
@[simp] theorem State.setReg_sp (s : State) (r : Reg) (v : Byte) : (s.setReg r v).sp = s.sp := rfl
@[simp] theorem State.setReg_pc (s : State) (r : Reg) (v : Byte) : (s.setReg r v).pc = s.pc := rfl
@[simp] theorem State.setReg_flags (s : State) (r : Reg) (v : Byte) : (s.setReg r v).flags = s.flags := rfl
@[simp] theorem State.setReg_running (s : State) (r : Reg) (v : Byte) : (s.setReg r v).running = s.running := rfl
@[simp] theorem State.setReg_mem (s : State) (r : Reg) (v : Byte) : (s.setReg r v).mem = s.mem := rfl
@[simp] theorem State.setReg_progEnd (s : State) (r : Reg) (v : Byte) : (s.setReg r v).progEnd = s.progEnd := rfl
@[simp] theorem State.setReg_draws (s : State) (r : Reg) (v : Byte) : (s.setReg r v).draws = s.draws := rfl

@[simp] theorem State.writeMem_regs (s : State) (a : Addr) (v : Byte) : (s.writeMem a v).regs = s.regs := rfl
@[simp] theorem State.writeMem_sp (s : State) (a : Addr) (v : Byte) : (s.writeMem a v).sp = s.sp := rfl
@[simp] theorem State.writeMem_pc (s : State) (a : Addr) (v : Byte) : (s.writeMem a v).pc = s.pc := rfl
@[simp] theorem State.writeMem_flags (s : State) (a : Addr) (v : Byte) : (s.writeMem a v).flags = s.flags := rfl
@[simp] theorem State.writeMem_running (s : State) (a : Addr) (v : Byte) : (s.writeMem a v).running = s.running := rfl
@[simp] theorem State.writeMem_mem (s : State) (a : Addr) (v : Byte) : (s.writeMem a v).mem = s.mem.write a.toNat v := rfl
@[simp] theorem State.writeMem_progEnd (s : State) (a : Addr) (v : Byte) : (s.writeMem a v).progEnd = s.progEnd := rfl
@[simp] theorem State.writeMem_draws (s : State) (a : Addr) (v : Byte) : (s.writeMem a v).draws = s.draws := rfl

@[simp] theorem State.pushByte_regs (s : State) (v : Byte) : (s.pushByte v).regs = s.regs := rfl
@[simp] theorem State.pushByte_sp (s : State) (v : Byte) : (s.pushByte v).sp = s.sp - 1 := rfl
@[simp] theorem State.pushByte_pc (s : State) (v : Byte) : (s.pushByte v).pc = s.pc := rfl
@[simp] theorem State.pushByte_flags (s : State) (v : Byte) : (s.pushByte v).flags = s.flags := rfl
@[simp] theorem State.pushByte_running (s : State) (v : Byte) : (s.pushByte v).running = s.running := rfl
@[simp] theorem State.pushByte_mem (s : State) (v : Byte) : (s.pushByte v).mem = s.mem.write (s.sp - 1).toNat v := rfl
@[simp] theorem State.pushByte_progEnd (s : State) (v : Byte) : (s.pushByte v).progEnd = s.progEnd := rfl
@[simp] theorem State.pushByte_draws (s : State) (v : Byte) : (s.pushByte v).draws = s.draws := rfl

@[simp] theorem State.dropByte_regs (s : State) : (s.dropByte).regs = s.regs := rfl
@[simp] theorem State.dropByte_sp (s : State) : (s.dropByte).sp = s.sp + 1 := rfl
@[simp] theorem State.dropByte_pc (s : State) : (s.dropByte).pc = s.pc := rfl
@[simp] theorem State.dropByte_flags (s : State) : (s.dropByte).flags = s.flags := rfl
@[simp] theorem State.dropByte_running (s : State) : (s.dropByte).running = s.running := rfl
@[simp] theorem State.dropByte_mem (s : State) : (s.dropByte).mem = s.mem := rfl
@[simp] theorem State.dropByte_progEnd (s : State) : (s.dropByte).progEnd = s.progEnd := rfl
@[simp] theorem State.dropByte_draws (s : State) : (s.dropByte).draws = s.draws := rfl

@[simp] theorem State.advance_regs (s : State) (len : Nat) : (s.advance len).regs = s.regs := rfl
@[simp] theorem State.advance_sp (s : State) (len : Nat) : (s.advance len).sp = s.sp := rfl
@[simp] theorem State.advance_pc (s : State) (len : Nat) : (s.advance len).pc = s.pc + BitVec.ofNat 16 len := rfl
@[simp] theorem State.advance_flags (s : State) (len : Nat) : (s.advance len).flags = s.flags := rfl
@[simp] theorem State.advance_running (s : State) (len : Nat) : (s.advance len).running = s.running := rfl
@[simp] theorem State.advance_mem (s : State) (len : Nat) : (s.advance len).mem = s.mem := rfl
@[simp] theorem State.advance_progEnd (s : State) (len : Nat) : (s.advance len).progEnd = s.progEnd := rfl
@[simp] theorem State.advance_draws (s : State) (len : Nat) : (s.advance len).draws = s.draws := rfl

@[simp] theorem State.jumpTo_regs (s : State) (a : Addr) : (s.jumpTo a).regs = s.regs := rfl
@[simp] theorem State.jumpTo_sp (s : State) (a : Addr) : (s.jumpTo a).sp = s.sp := rfl
@[simp] theorem State.jumpTo_pc (s : State) (a : Addr) : (s.jumpTo a).pc = a := rfl
@[simp] theorem State.jumpTo_flags (s : State) (a : Addr) : (s.jumpTo a).flags = s.flags := rfl
@[simp] theorem State.jumpTo_running (s : State) (a : Addr) : (s.jumpTo a).running = s.running := rfl
@[simp] theorem State.jumpTo_mem (s : State) (a : Addr) : (s.jumpTo a).mem = s.mem := rfl
@[simp] theorem State.jumpTo_progEnd (s : State) (a : Addr) : (s.jumpTo a).progEnd = s.progEnd := rfl
@[simp] theorem State.jumpTo_draws (s : State) (a : Addr) : (s.jumpTo a).draws = s.draws := rfl

@[simp] theorem State.raiseHalt_regs (s : State) (c : HaltCause) : (s.raiseHalt c).regs = s.regs := rfl
@[simp] theorem State.raiseHalt_sp (s : State) (c : HaltCause) : (s.raiseHalt c).sp = s.sp := rfl
@[simp] theorem State.raiseHalt_pc (s : State) (c : HaltCause) : (s.raiseHalt c).pc = s.pc + 1 := rfl
@[simp] theorem State.raiseHalt_flags (s : State) (c : HaltCause) : (s.raiseHalt c).flags = s.flags := rfl
@[simp] theorem State.raiseHalt_running (s : State) (c : HaltCause) : (s.raiseHalt c).running = false := rfl
@[simp] theorem State.raiseHalt_mem (s : State) (c : HaltCause) : (s.raiseHalt c).mem = s.mem := rfl
@[simp] theorem State.raiseHalt_progEnd (s : State) (c : HaltCause) : (s.raiseHalt c).progEnd = s.progEnd := rfl
@[simp] theorem State.raiseHalt_draws (s : State) (c : HaltCause) : (s.raiseHalt c).draws = s.draws := rfl

@[simp] theorem State.setZS_regs (s : State) (r : Byte) : (s.setZS r).regs = s.regs := rfl
@[simp] theorem State.setZS_sp (s : State) (r : Byte) : (s.setZS r).sp = s.sp := rfl
@[simp] theorem State.setZS_pc (s : State) (r : Byte) : (s.setZS r).pc = s.pc := rfl
@[simp] theorem State.setZS_flags (s : State) (r : Byte) : (s.setZS r).flags = { s.flags with zero := r == 0, sign := r.getLsbD 7 } := rfl
@[simp] theorem State.setZS_running (s : State) (r : Byte) : (s.setZS r).running = s.running := rfl
@[simp] theorem State.setZS_mem (s : State) (r : Byte) : (s.setZS r).mem = s.mem := rfl
@[simp] theorem State.setZS_progEnd (s : State) (r : Byte) : (s.setZS r).progEnd = s.progEnd := rfl
@[simp] theorem State.setZS_draws (s : State) (r : Byte) : (s.setZS r).draws = s.draws := rfl

@[simp] theorem State.consumeDraw_regs (s : State) : (s.consumeDraw).regs = s.regs := rfl
@[simp] theorem State.consumeDraw_sp (s : State) : (s.consumeDraw).sp = s.sp := rfl
@[simp] theorem State.consumeDraw_pc (s : State) : (s.consumeDraw).pc = s.pc := rfl
@[simp] theorem State.consumeDraw_flags (s : State) : (s.consumeDraw).flags = s.flags := rfl
@[simp] theorem State.consumeDraw_running (s : State) : (s.consumeDraw).running = s.running := rfl
@[simp] theorem State.consumeDraw_mem (s : State) : (s.consumeDraw).mem = s.mem := rfl
@[simp] theorem State.consumeDraw_progEnd (s : State) : (s.consumeDraw).progEnd = s.progEnd := rfl
@[simp] theorem State.consumeDraw_draws (s : State) : (s.consumeDraw).draws = s.draws + 1 := rfl

@[simp] theorem State.placeInstr_regs (s : State) (bytes : List Byte) : (s.placeInstr bytes).regs = s.regs := rfl
@[simp] theorem State.placeInstr_sp (s : State) (bytes : List Byte) : (s.placeInstr bytes).sp = s.sp := rfl
@[simp] theorem State.placeInstr_pc (s : State) (bytes : List Byte) : (s.placeInstr bytes).pc = s.pc := rfl
@[simp] theorem State.placeInstr_flags (s : State) (bytes : List Byte) : (s.placeInstr bytes).flags = s.flags := rfl
@[simp] theorem State.placeInstr_running (s : State) (bytes : List Byte) : (s.placeInstr bytes).running = true := rfl
@[simp] theorem State.placeInstr_mem (s : State) (bytes : List Byte) : (s.placeInstr bytes).mem = s.mem.writeBytes s.pc.toNat (bytes.take (memSize - s.pc.toNat)) := rfl
@[simp] theorem State.placeInstr_progEnd (s : State) (bytes : List Byte) : (s.placeInstr bytes).progEnd = s.progEnd := rfl
@[simp] theorem State.placeInstr_draws (s : State) (bytes : List Byte) : (s.placeInstr bytes).draws = s.draws := rfl

@[simp] theorem State.resetUnder_regs (c : Config) : (State.resetUnder c).regs = Vector.replicate 8 0 := rfl
@[simp] theorem State.resetUnder_sp (c : Config) : (State.resetUnder c).sp = c.spReset := rfl
@[simp] theorem State.resetUnder_pc (c : Config) : (State.resetUnder c).pc = 0 := rfl
@[simp] theorem State.resetUnder_flags (c : Config) : (State.resetUnder c).flags = Flags.reset := rfl
@[simp] theorem State.resetUnder_running (c : Config) : (State.resetUnder c).running = true := rfl
@[simp] theorem State.resetUnder_mem (c : Config) : (State.resetUnder c).mem = [] := rfl
@[simp] theorem State.resetUnder_progEnd (c : Config) : (State.resetUnder c).progEnd = 0 := rfl
@[simp] theorem State.resetUnder_draws (c : Config) : (State.resetUnder c).draws = 0 := rfl

/-! ## Registers and memory read through an update -/

@[simp] theorem State.getReg_setReg_same (s : State) (r : Reg) (v : Byte) :
    (s.setReg r v).getReg r = v := by
  simp [State.getReg, State.setReg]

theorem State.getReg_setReg_other (s : State) {r k : Reg} (v : Byte) (h : k ≠ r) :
    (s.setReg r v).getReg k = s.getReg k := by
  have : (r : Nat) ≠ k := fun e => h (Fin.ext e.symm)
  simp [State.getReg, State.setReg, this]

@[simp] theorem State.getReg_writeMem (s : State) (a : Addr) (v : Byte) (r : Reg) :
    (s.writeMem a v).getReg r = s.getReg r := rfl
@[simp] theorem State.getReg_pushByte (s : State) (v : Byte) (r : Reg) :
    (s.pushByte v).getReg r = s.getReg r := rfl
@[simp] theorem State.getReg_dropByte (s : State)  (r : Reg) :
    (s.dropByte).getReg r = s.getReg r := rfl
@[simp] theorem State.getReg_advance (s : State) (len : Nat) (r : Reg) :
    (s.advance len).getReg r = s.getReg r := rfl
@[simp] theorem State.getReg_jumpTo (s : State) (a : Addr) (r : Reg) :
    (s.jumpTo a).getReg r = s.getReg r := rfl
@[simp] theorem State.getReg_raiseHalt (s : State) (c : HaltCause) (r : Reg) :
    (s.raiseHalt c).getReg r = s.getReg r := rfl
@[simp] theorem State.getReg_setZS (s : State) (v : Byte) (r : Reg) :
    (s.setZS v).getReg r = s.getReg r := rfl
@[simp] theorem State.getReg_consumeDraw (s : State)  (r : Reg) :
    (s.consumeDraw).getReg r = s.getReg r := rfl

@[simp] theorem State.readMem_setReg (s : State) (r : Reg) (v : Byte) (a : Addr) :
    (s.setReg r v).readMem a = s.readMem a := rfl
@[simp] theorem State.readMem_dropByte (s : State)  (a : Addr) :
    (s.dropByte).readMem a = s.readMem a := rfl
@[simp] theorem State.readMem_advance (s : State) (len : Nat) (a : Addr) :
    (s.advance len).readMem a = s.readMem a := rfl
@[simp] theorem State.readMem_jumpTo (s : State) (x : Addr) (a : Addr) :
    (s.jumpTo x).readMem a = s.readMem a := rfl
@[simp] theorem State.readMem_raiseHalt (s : State) (c : HaltCause) (a : Addr) :
    (s.raiseHalt c).readMem a = s.readMem a := rfl
@[simp] theorem State.readMem_setZS (s : State) (v : Byte) (a : Addr) :
    (s.setZS v).readMem a = s.readMem a := rfl
@[simp] theorem State.readMem_consumeDraw (s : State)  (a : Addr) :
    (s.consumeDraw).readMem a = s.readMem a := rfl

end Sys2Proof.Machine
end

