-- ==== Sys2Proof/Laws/Memory.lean ====
section
/-! SUPPORT. The laws of memory: a read after a write, canonical form kept by every operation, and
canonical memories that read alike are equal. -/

namespace Sys2Proof.Machine

/-! ## Reading one byte -/

@[simp] theorem Memory.read_nil (a : Nat) : Memory.read [] a = 0 := rfl

theorem Memory.read_cons (b : Nat) (w : Byte) (m : Memory) (a : Nat) :
    Memory.read ((b, w) :: m) a = if a = b then w else Memory.read m a := rfl

/-- An address below every listed one reads as an unlisted byte. -/
theorem Memory.read_of_lt {m : Memory} {a : Nat} (h : ∀ c ∈ m, a < c.1) : m.read a = 0 := by
  induction m with
  | nil => rfl
  | cons c m ih =>
    obtain ⟨b, w⟩ := c
    have hb : a < b := h (b, w) (by simp)
    rw [Memory.read_cons, if_neg (by omega), ih (fun c hc => h c (by simp [hc]))]

/-! ## The canonical form -/

theorem Memory.wf_nil : Memory.wf [] := ⟨List.Pairwise.nil, by simp⟩

theorem Memory.wf_tail {c : Host.Cell} {m : Memory} (h : Memory.wf (c :: m)) : Memory.wf m :=
  ⟨(List.pairwise_cons.1 h.1).2, fun d hd => h.2 d (by simp [hd])⟩

theorem Memory.wf_head_lt {c : Host.Cell} {m : Memory} (h : Memory.wf (c :: m)) :
    ∀ d ∈ m, c.1 < d.1 := (List.pairwise_cons.1 h.1).1

/-- A stored byte reads back. -/
theorem Memory.read_write_same {m : Memory} (h : m.wf) (a : Nat) (v : Byte) :
    (m.write a v).read a = v := by
  induction m with
  | nil => unfold Memory.write; split <;> simp_all [Memory.read]
  | cons c m ih =>
    obtain ⟨b, w⟩ := c
    have hlt := Memory.wf_head_lt h
    unfold Memory.write
    split
    · split
      · rename_i hab hv
        rw [Memory.read_cons, if_neg (by omega), hv]
        exact Memory.read_of_lt (fun d hd => by have : b < d.1 := hlt d hd; omega)
      · simp [Memory.read]
    · split
      · split
        · rename_i hab hv
          rw [hv]
          exact Memory.read_of_lt (fun d hd => by have : b < d.1 := hlt d hd; omega)
        · simp [Memory.read]
      · rename_i _ hab
        rw [Memory.read_cons, if_neg hab, ih (Memory.wf_tail h)]

/-- A write leaves every other byte alone. -/
theorem Memory.read_write_other (m : Memory) {a b : Nat} (v : Byte) (h : b ≠ a) :
    (m.write a v).read b = m.read b := by
  induction m with
  | nil => unfold Memory.write; split <;> simp_all [Memory.read]
  | cons c m ih =>
    obtain ⟨d, w⟩ := c
    unfold Memory.write
    split
    · split
      · rfl
      · simp [Memory.read, h]
    · split
      · rename_i hab
        subst hab
        split <;> simp [Memory.read, h]
      · simp [Memory.read, ih]

/-- Every listed address of a written memory is a listed one or the written one. -/
theorem Memory.mem_write {m : Memory} {a : Nat} {v : Byte} {c : Host.Cell}
    (h : c ∈ m.write a v) : c ∈ m ∨ (c = (a, v) ∧ v ≠ 0) := by
  induction m with
  | nil =>
    unfold Memory.write at h
    split at h
    · simp at h
    · exact .inr ⟨by simpa using h, ‹_›⟩
  | cons d m ih =>
    obtain ⟨b, w⟩ := d
    unfold Memory.write at h
    split at h
    · split at h
      · exact .inl h
      · rcases List.mem_cons.1 h with h | h
        · exact .inr ⟨h, ‹_›⟩
        · exact .inl h
    · split at h
      · split at h
        · exact .inl (by simp [h])
        · rcases List.mem_cons.1 h with h | h
          · exact .inr ⟨h, ‹_›⟩
          · exact .inl (by simp [h])
      · rcases List.mem_cons.1 h with h | h
        · exact .inl (by simp [h])
        · rcases ih h with h | h
          · exact .inl (by simp [h])
          · exact .inr h

/-- A write keeps the canonical form. -/
theorem Memory.wf_write {m : Memory} (h : m.wf) {a : Nat} (ha : a < memSize) (v : Byte) :
    (m.write a v).wf := by
  refine ⟨?_, fun c hc => ?_⟩
  · induction m with
    | nil => unfold Memory.write; split <;> simp
    | cons c m ih =>
      obtain ⟨b, w⟩ := c
      have hlt := Memory.wf_head_lt h
      have htl := (Memory.wf_tail h).1
      unfold Memory.write
      split
      · split
        · exact h.1
        · refine List.pairwise_cons.2 ⟨fun d hd => ?_, h.1⟩
          rcases List.mem_cons.1 hd with rfl | hd
          · assumption
          · have := hlt d hd; simp at this ⊢; omega
      · split
        · rename_i hab
          split
          · exact htl
          · exact List.pairwise_cons.2 ⟨fun d hd => by have := hlt d hd; simpa [hab] using this, htl⟩
        · refine List.pairwise_cons.2 ⟨fun d hd => ?_, ih (Memory.wf_tail h)⟩
          rcases Memory.mem_write hd with hd | ⟨rfl, -⟩
          · exact hlt d hd
          · simp; omega
  · rcases Memory.mem_write hc with hc | ⟨rfl, hv⟩
    · exact h.2 c hc
    · exact ⟨ha, hv⟩

theorem Memory.wf_writeBytes {m : Memory} (h : m.wf) (a : Nat) (bs : List Byte) :
    (m.writeBytes a bs).wf := by
  induction bs generalizing m a with
  | nil => exact h
  | cons b bs ih => exact ih (Memory.wf_write h (Nat.mod_lt _ (by decide)) b) _

/-- Bytes that a run of stores does not reach read as before. -/
theorem Memory.read_writeBytes_other (m : Memory) (a : Nat) (bs : List Byte) {b : Nat}
    (h : ∀ k < bs.length, b ≠ (a + k) % memSize) : (m.writeBytes a bs).read b = m.read b := by
  induction bs generalizing m a with
  | nil => rfl
  | cons v bs ih =>
    rw [Memory.writeBytes, ih, Memory.read_write_other]
    · simpa using h 0 (by simp)
    · intro k hk
      have := h (k + 1) (by simp; omega)
      rwa [show a + 1 + k = a + (k + 1) by omega]

/-- Canonical memories that read alike at every address are equal. -/
theorem Memory.ext_of_wf {m n : Memory} (hm : m.wf) (hn : n.wf)
    (h : ∀ a, m.read a = n.read a) : m = n := by
  induction m generalizing n with
  | nil =>
    cases n with
    | nil => rfl
    | cons d n =>
      have := h d.1
      exact absurd (by simpa [Memory.read] using this.symm) (hn.2 d (by simp)).2
  | cons c m ih =>
    obtain ⟨a, v⟩ := c
    cases n with
    | nil =>
      have := h a
      exact absurd (by simpa [Memory.read] using this) (hm.2 (a, v) (by simp)).2
    | cons d n =>
      obtain ⟨b, w⟩ := d
      have hv : v ≠ 0 := (hm.2 (a, v) (by simp)).2
      have hw : w ≠ 0 := (hn.2 (b, w) (by simp)).2
      have hma := Memory.wf_head_lt hm
      have hnb := Memory.wf_head_lt hn
      have hab : a = b := by
        rcases Nat.lt_trichotomy a b with hlt | heq | hgt
        · have := h a
          rw [Memory.read_cons, if_pos rfl, Memory.read_of_lt] at this
          · exact absurd this hv
          · intro c hc
            rcases List.mem_cons.1 hc with rfl | hc
            · exact hlt
            · have := hnb c hc; simp at this; omega
        · exact heq
        · have := h b
          rw [Memory.read_cons (b := b), if_pos rfl, Memory.read_of_lt] at this
          · exact absurd this.symm hw
          · intro c hc
            rcases List.mem_cons.1 hc with rfl | hc
            · exact hgt
            · have := hma c hc; simp at this; omega
      subst hab
      have hvw : v = w := by simpa [Memory.read] using h a
      subst hvw
      congr 1
      refine ih (Memory.wf_tail hm) (Memory.wf_tail hn) (fun x => ?_)
      by_cases hx : x = a
      · subst hx
        rw [Memory.read_of_lt (fun c hc => by simpa using hma c hc),
          Memory.read_of_lt (fun c hc => by simpa using hnb c hc)]
      · simpa [Memory.read, hx] using h x

/-! ## The same, at the state -/

theorem State.readMem_writeMem_same {s : State} (h : s.mem.wf) (a : Addr) (v : Byte) :
    (s.writeMem a v).readMem a = v := Memory.read_write_same h _ _

theorem State.readMem_writeMem_other (s : State) {a b : Addr} (v : Byte) (h : b ≠ a) :
    (s.writeMem a v).readMem b = s.readMem b :=
  Memory.read_write_other _ _ (fun e => h (BitVec.eq_of_toNat_eq e))

theorem State.readMem_pushByte_same {s : State} (h : s.mem.wf) (v : Byte) :
    (s.pushByte v).readMem (s.sp - 1) = v := Memory.read_write_same h _ _

theorem State.readMem_pushByte_other (s : State) {b : Addr} (v : Byte) (h : b ≠ s.sp - 1) :
    (s.pushByte v).readMem b = s.readMem b :=
  Memory.read_write_other _ _ (fun e => h (BitVec.eq_of_toNat_eq e))

/-- Every state update of the model keeps the canonical form. -/
theorem State.wf_setReg {s : State} (h : s.mem.wf) (r : Reg) (v : Byte) : (s.setReg r v).mem.wf := h

theorem State.wf_writeMem {s : State} (h : s.mem.wf) (a : Addr) (v : Byte) :
    (s.writeMem a v).mem.wf := Memory.wf_write h a.isLt v

theorem State.wf_pushByte {s : State} (h : s.mem.wf) (v : Byte) : (s.pushByte v).mem.wf :=
  Memory.wf_write h (s.sp - 1).isLt v

theorem State.wf_placeInstr {s : State} (h : s.mem.wf) (bytes : List Byte) :
    (s.placeInstr bytes).mem.wf := Memory.wf_writeBytes h _ _

theorem State.wf_reset : State.reset.mem.wf := Memory.wf_nil

end Sys2Proof.Machine
end

