-- ==== Sys2Proof/Laws/Operands.lean ====
section
/-! SUPPORT. What the shared operand operations can do: the place a written operand names, what a
write to a place changes and leaves alone, and the two outcomes of `finishResult`. -/

namespace Sys2Proof.Machine

/-- The byte a place holds. -/
def State.placeByte (s : State) : Place → Byte
  | .reg r => s.getReg r
  | .mem a => s.readMem a

/-! ## Places -/

theorem State.placeOf_of_writable (s : State) {p : Operand} (h : p.writable = true) :
    ∃ d, s.placeOf p = some d ∧ s.readOp p = s.placeByte d := by
  cases p with
  | reg r => exact ⟨.reg r, rfl, rfl⟩
  | imm v => simp [Operand.writable] at h
  | mem m => exact ⟨.mem (s.effAddr m), rfl, rfl⟩

theorem State.placeOf_eq_none (s : State) {p : Operand} :
    s.placeOf p = none ↔ p.writable = false := by
  cases p <;> simp [State.placeOf, Operand.writable]

/-- The effective address is a function of the general-purpose registers alone. -/
theorem State.effAddr_congr {s t : State} (h : ∀ r, t.getReg r = s.getReg r) (m : MemRef) :
    t.effAddr m = s.effAddr m := by
  cases m <;> simp [State.effAddr, h]

/-- The place an operand names is a function of the general-purpose registers alone. -/
theorem State.placeOf_congr {s t : State} (h : ∀ r, t.getReg r = s.getReg r) (p : Operand) :
    t.placeOf p = s.placeOf p := by
  cases p <;> simp [State.placeOf, State.effAddr_congr h]

/-- An operand's value is a function of the registers and of memory. -/
theorem State.readOp_congr {s t : State} (hr : ∀ r, t.getReg r = s.getReg r)
    (hm : ∀ a, t.readMem a = s.readMem a) (p : Operand) : t.readOp p = s.readOp p := by
  cases p <;> simp [State.readOp, State.effAddr_congr hr, hr, hm]

/-! ## Writing a place -/

section
variable (s : State) (d : Place) (v : Byte)

@[simp] theorem State.writePlace_sp : (s.writePlace d v).sp = s.sp := by cases d <;> rfl
@[simp] theorem State.writePlace_pc : (s.writePlace d v).pc = s.pc := by cases d <;> rfl
@[simp] theorem State.writePlace_flags : (s.writePlace d v).flags = s.flags := by cases d <;> rfl
@[simp] theorem State.writePlace_running : (s.writePlace d v).running = s.running := by
  cases d <;> rfl
@[simp] theorem State.writePlace_progEnd : (s.writePlace d v).progEnd = s.progEnd := by
  cases d <;> rfl
@[simp] theorem State.writePlace_draws : (s.writePlace d v).draws = s.draws := by cases d <;> rfl

end

/-- The written place holds the value. -/
theorem State.placeByte_writePlace_same {s : State} (h : s.mem.wf) (d : Place) (v : Byte) :
    (s.writePlace d v).placeByte d = v := by
  cases d with
  | reg r => exact State.getReg_setReg_same s r v
  | mem a => exact State.readMem_writeMem_same h a v

/-- Every other place holds what it held. -/
theorem State.placeByte_writePlace_other (s : State) {d e : Place} (v : Byte) (h : e ≠ d) :
    (s.writePlace d v).placeByte e = s.placeByte e := by
  cases d with
  | reg r =>
    cases e with
    | reg k => exact State.getReg_setReg_other s v (by simpa using h)
    | mem a => rfl
  | mem a =>
    cases e with
    | reg k => rfl
    | mem b => exact State.readMem_writeMem_other s v (by simpa using h)

theorem State.wf_writePlace {s : State} (h : s.mem.wf) (d : Place) (v : Byte) :
    (s.writePlace d v).mem.wf := by
  cases d with
  | reg r => exact h
  | mem a => exact State.wf_writeMem h a v

/-! ## Completing a result -/

/-- A writable operand 0: the result is written, the flags are set from it, `pc` moves on. -/
theorem State.finishResult_of_place (s : State) (len : Nat) {p : Operand} {d : Place} (r : Byte)
    (h : s.placeOf p = some d) :
    s.finishResult len p r = .next (((s.writePlace d r).setZS r).advance len) := by
  simp [State.finishResult, h]

/-- An immediate operand 0: the halt. -/
theorem State.finishResult_of_imm (s : State) (len : Nat) {p : Operand} (r : Byte)
    (h : s.placeOf p = none) : s.finishResult len p r = .next (s.raiseHalt .immDest) := by
  simp [State.finishResult, h]

/-- Everything `finishResult` can answer. -/
theorem State.finishResult_cases {s t : State} {len : Nat} {p : Operand} {r : Byte}
    (h : s.finishResult len p r = .next t) :
    (s.placeOf p = none ∧ t = s.raiseHalt .immDest) ∨
    ∃ d, s.placeOf p = some d ∧ t = ((s.writePlace d r).setZS r).advance len := by
  cases hp : s.placeOf p with
  | none =>
    rw [State.finishResult_of_imm s len r hp] at h
    exact .inl ⟨rfl, by injection h with h; exact h.symm⟩
  | some d =>
    rw [State.finishResult_of_place s len r hp] at h
    exact .inr ⟨d, rfl, by injection h with h; exact h.symm⟩

end Sys2Proof.Machine
end

