-- ==== Sys2Proof/Laws/PerInstr.lean ====
section
/-! SUPPORT. The family `EncodingForm`, one lemma per constructor of `Instr`: an instruction's encoding
begins with the opcode byte of its mnemonic and has the length of spec 30_encoding.md R78, between
1 and 8. -/

namespace Sys2Proof.Laws.EncodingForm

def Statement (i : Instr) : Prop :=
  ∀ t : OpcodeMap, (encodeWith t i).head? = some (t i.mnemonic) ∧
    (encodeWith t i).length = i.length ∧ 1 ≤ i.length ∧ i.length ≤ maxLength

theorem ofU {t : OpcodeMap} (o : UOp) (p : Operand) :
    (encodeU t o p).head? = some (t (.u o)) ∧ (encodeU t o p).length = lengthU p ∧
      1 ≤ lengthU p ∧ lengthU p ≤ maxLength := by
  have := p.length_le
  exact ⟨rfl, encodeU_length t o p, by simp [lengthU]; omega, by simp [lengthU, maxLength]; omega⟩

theorem ofUS {t : OpcodeMap} (o : USOp) (p : Operand) (c : Count) :
    (encodeUS t o p c).head? = some (t (.us o)) ∧ (encodeUS t o p c).length = lengthUS p ∧
      1 ≤ lengthUS p ∧ lengthUS p ≤ maxLength := by
  have := p.length_le
  exact ⟨rfl, encodeUS_length t o p c, by simp [lengthUS]; omega,
    by simp [lengthUS, maxLength]; omega⟩

theorem ofB {t : OpcodeMap} (o : BOp) (p q : Operand) :
    (encodeB t o p q).head? = some (t (.b o)) ∧ (encodeB t o p q).length = lengthB p q ∧
      1 ≤ lengthB p q ∧ lengthB p q ≤ maxLength := by
  have := p.length_le
  have := q.length_le
  exact ⟨rfl, encodeB_length t o p q, by simp [lengthB]; omega,
    by simp [lengthB, maxLength]; omega⟩

theorem ofJ {t : OpcodeMap} (o : JOp) (a : Addr) :
    (encodeJ t o a).head? = some (t (.j o)) ∧ (encodeJ t o a).length = 3 ∧
      1 ≤ 3 ∧ 3 ≤ maxLength := ⟨rfl, rfl, by decide, by decide⟩

theorem hlt : Statement .hlt := fun _ => ⟨rfl, rfl, by decide, by decide⟩
theorem ret : Statement .ret := fun _ => ⟨rfl, rfl, by decide, by decide⟩
theorem mov (p q : Operand) : Statement (.mov p q) := fun _ => ofB .mov p q
theorem add (p q : Operand) : Statement (.add p q) := fun _ => ofB .add p q
theorem sub (p q : Operand) : Statement (.sub p q) := fun _ => ofB .sub p q
theorem cmp (p q : Operand) : Statement (.cmp p q) := fun _ => ofB .cmp p q
theorem and (p q : Operand) : Statement (.and p q) := fun _ => ofB .and p q
theorem or (p q : Operand) : Statement (.or p q) := fun _ => ofB .or p q
theorem xor (p q : Operand) : Statement (.xor p q) := fun _ => ofB .xor p q
theorem inc (p : Operand) : Statement (.inc p) := fun _ => ofU .inc p
theorem dec (p : Operand) : Statement (.dec p) := fun _ => ofU .dec p
theorem not (p : Operand) : Statement (.not p) := fun _ => ofU .not p
theorem shl (p : Operand) (count : Count) : Statement (.shl p count) := fun _ => ofUS .shl p count
theorem shr (p : Operand) (count : Count) : Statement (.shr p count) := fun _ => ofUS .shr p count
theorem rnd (p : Operand) : Statement (.rnd p) := fun _ => ofU .rnd p
theorem push (p : Operand) : Statement (.push p) := fun _ => ofU .push p
theorem pop (p : Operand) : Statement (.pop p) := fun _ => ofU .pop p
theorem jmp (target : Addr) : Statement (.jmp target) := fun _ => ofJ .jmp target
theorem jz (target : Addr) : Statement (.jz target) := fun _ => ofJ .jz target
theorem jnz (target : Addr) : Statement (.jnz target) := fun _ => ofJ .jnz target
theorem call (target : Addr) : Statement (.call target) := fun _ => ofJ .call target

end Sys2Proof.Laws.EncodingForm
end

