-- ==== Sys2Proof/Tests/Slice0.lean ====
section
/-! SUPPORT. The model's own tests. Every expected value is a vector of spec/95_test_vectors.md (its id
stands in the docstring) or is written out from the encoding rules of spec/30_encoding.md. Then the
witnesses: for every obligation with hypotheses, concrete data that meet them together. -/

namespace Sys2Proof.Tests

open Sys2Proof Sys2Proof.Machine

/-! ## Helpers -/

/-- Bytes placed at an address, and `pc` there: the start of a vector. -/
def placed (a : Nat) (bytes : List Byte) (s : State) : State :=
  { s with mem := s.mem.writeBytes a bytes, pc := BitVec.ofNat 16 a }

/-- The state one step leaves. -/
def stepped (s : State) : Option State :=
  match step s with
  | .next t => some t
  | .fault _ => none
  | .refused _ => none

/-- What a test looks at: registers 0 to 3, `sp`, `pc`, `Z`, `S`, `running`. -/
def view (t : State) : List Byte × Addr × Addr × Bool × Bool × Bool :=
  (t.regs.toList.take 4, t.sp, t.pc, t.flags.zero, t.flags.sign, t.running)

/-- The reset state with registers 0 to 2 set. -/
def start (x0 x1 x2 : Byte) : State :=
  ((State.reset.setReg 0 x0).setReg 1 x1).setReg 2 x2

/-- The cause label of a halting step. -/
def cause (a : Nat) (bytes : List Byte) : Option HaltCause :=
  haltCauseUnder Config.machine (placed a bytes State.reset)

/-! ## WellFormed refuses an immediate destination (R72), and only that -/

theorem test_wellFormed_refuses_immediate_destination :
    ([.mov (.imm 5) (.reg 0), .add (.imm 5) (.reg 0), .sub (.imm 5) (.reg 0),
      .and (.imm 5) (.reg 0), .or (.imm 5) (.reg 0), .xor (.imm 5) (.reg 0),
      .inc (.imm 5), .dec (.imm 5), .not (.imm 5), .shl (.imm 5) 1, .shr (.imm 5) 1,
      .rnd (.imm 5), .pop (.imm 5)] : List Instr).all (fun i => !i.wellFormed) = true := by decide

theorem test_wellFormed_accepts_immediate_operand_read :
    ([.cmp (.imm 5) (.imm 5), .push (.imm 5), .mov (.mem (.abs 0x40)) (.imm 1)] : List Instr).all
      (fun i => i.wellFormed) = true := by decide

/-! ## Decoding: every constructor from its bits (R61 to R70) -/

theorem test_decode_hlt : decode [0b00000000] = .ok (.hlt, 1) := by decide
theorem test_decode_ret : decode [0b00000001] = .ok (.ret, 1) := by decide
/-- `MOV [EBX+2],[ECX]` of R111: `tag0 = 2`, `tag1 = 2`. -/
theorem test_decode_mov :
    decode [0b00010000, 0b00001010, 0b00000010, 0b00000001, 0b00000010, 0b00000001, 0b00000010] =
      .ok (.mov (.mem (.off 1 2)) (.mem (.ind 2)), 7) := by decide
/-- V-RT `ADD EAX,EBX`. -/
theorem test_decode_add :
    decode [0b00010001, 0b00000000, 0b00000000, 0b00000001] = .ok (.add (.reg 0) (.reg 1), 4) := by
  decide
theorem test_decode_sub :
    decode [0b00010010, 0b00000100, 0b00000000, 0b00000111] = .ok (.sub (.reg 0) (.imm 7), 4) := by
  decide
/-- V-RT `CMP #5,EAX`: an immediate operand 0. -/
theorem test_decode_cmp :
    decode [0b00010011, 0b00000001, 0b00000101, 0b00000000] = .ok (.cmp (.imm 5) (.reg 0), 4) := by
  decide
theorem test_decode_and :
    decode [0b00010100, 0b00000100, 0b00000000, 0b00001111] = .ok (.and (.reg 0) (.imm 15), 4) := by
  decide
theorem test_decode_or :
    decode [0b00010101, 0b00000100, 0b00000001, 0b10000000] = .ok (.or (.reg 1) (.imm 128), 4) := by
  decide
/-- V-RT `XOR [EBX+0],[EBX+1]`, eight bytes. -/
theorem test_decode_xor :
    decode [0b00010110, 0b00001010, 0b00000010, 0b00000001, 0b00000000, 0b00000010, 0b00000001,
      0b00000001] = .ok (.xor (.mem (.off 1 0)) (.mem (.off 1 1)), 8) := by decide
/-- V-RT `INC [0x0050]`: little-endian address. -/
theorem test_decode_inc :
    decode [0b00100000, 0b00000010, 0b00000000, 0b01010000, 0b00000000] =
      .ok (.inc (.mem (.abs 0x0050)), 5) := by decide
theorem test_decode_dec : decode [0b00100001, 0b00000000, 0b00000010] = .ok (.dec (.reg 2), 3) := by
  decide
theorem test_decode_not : decode [0b00100010, 0b00000000, 0b00000000] = .ok (.not (.reg 0), 3) := by
  decide
/-- V-RT `SHL [R7-128],7`. -/
theorem test_decode_shl :
    decode [0b00100011, 0b00000010, 0b00000010, 0b00000111, 0b10000000, 0b00000111] =
      .ok (.shl (.mem (.off 7 0x80)) 7, 6) := by decide
theorem test_decode_shr :
    decode [0b00100100, 0b00000010, 0b00000000, 0b01000000, 0b00000000, 0b00000100] =
      .ok (.shr (.mem (.abs 0x0040)) 4, 6) := by decide
theorem test_decode_rnd : decode [0b00100101, 0b00000000, 0b00000011] = .ok (.rnd (.reg 3), 3) := by
  decide
theorem test_decode_push :
    decode [0b00100110, 0b00000001, 0b10000000] = .ok (.push (.imm 128), 3) := by decide
theorem test_decode_pop :
    decode [0b00100111, 0b00000010, 0b00000001, 0b00000001] = .ok (.pop (.mem (.ind 1)), 4) := by
  decide
theorem test_decode_jmp :
    decode [0b00110000, 0b00110100, 0b00010010] = .ok (.jmp 0x1234, 3) := by decide
theorem test_decode_jz : decode [0b00110001, 0b00010100, 0b00000000] = .ok (.jz 0x0014, 3) := by
  decide
theorem test_decode_jnz : decode [0b00110010, 0b00000100, 0b00000000] = .ok (.jnz 0x0004, 3) := by
  decide
theorem test_decode_call : decode [0b00110011, 0b00001110, 0b00000000] = .ok (.call 0x000E, 3) := by
  decide

/-! ## Non-canonical encodings (V-H) -/

/-- V-H5 to V-H9. -/
theorem test_cause_bad_mode :
    [cause 0 [0x10, 0x0C], cause 0 [0x10, 0x10], cause 0 [0x20, 0x04], cause 0 [0x10, 0x03],
      cause 0 [0x26, 0x03]] = List.replicate 5 (some .badMode) := by decide
/-- V-H10 to V-H13: the mode byte is checked before the index byte `08`. -/
theorem test_cause_imm_dest :
    [cause 0 [0x10, 0x01, 0x05], cause 0 [0x20, 0x01, 0x05], cause 0 [0x27, 0x01, 0x05],
      cause 0 [0x10, 0x05, 0x08]] = List.replicate 4 (some .immDest) := by decide
/-- V-H14 to V-H16: the index byte precedes the count byte. -/
theorem test_cause_bad_reg :
    [cause 0 [0x10, 0x00, 0x08], cause 0 [0x10, 0x08, 0x00, 0x01, 0x09],
      cause 0 [0x23, 0x02, 0x01, 0x08, 0x09]] = List.replicate 3 (some .badReg) := by decide
/-- V-H17 to V-H19. -/
theorem test_cause_submode_and_count :
    [cause 0 [0x10, 0x02, 0x03], cause 0 [0x10, 0x0A, 0x03, 0x00, 0x09],
      cause 0 [0x23, 0x00, 0x00, 0x08]] =
      [some .badSubmode, some .badSubmode, some .badCount] := by decide
/-- V-H20 to V-H24: the top of memory. -/
theorem test_cause_top_of_memory :
    [cause 0xFFFE [0x30, 0x00], cause 0xFFFD [0x10, 0x04, 0x00], cause 0xFFFF [0x10],
      cause 0xFFFE [0x10, 0x0C], cause 0xFFFF [0xFF]] =
      [some .fetchPastEnd, some .fetchPastEnd, some .fetchPastEnd, some .badMode,
        some .unknownOpcode] := by decide
/-- V-H22: the halt at `0xFFFF` wraps `pc`. -/
theorem test_halt_at_top :
    (stepped (placed 0xFFFF [0x10] State.reset)).map view =
      some ([0, 0, 0, 0], 0xFFFF, 0, false, false, false) := by decide
/-- V-H25: an instruction that ends at `0xFFFF` runs, and `pc` wraps. -/
theorem test_instruction_ending_at_top :
    (stepped (placed 0xFFFC [0x10, 0x04, 0x00, 0x01] State.reset)).map view =
      some ([1, 0, 0, 0], 0xFFFF, 0, false, false, true) := by decide
/-- V-H25 under `PC_WRAP = fault`. -/
theorem test_pc_wrap_fault :
    stepUnder { Config.machine with pcWrap := .fault }
      (placed 0xFFFC [0x10, 0x04, 0x00, 0x01] State.reset) = .fault .pcPastEnd := rfl

/-! ## One step of every instruction (V-M, V-AR, V-L, V-S, V-C) -/

/-- V-M3: the address comes from the old `x0`. -/
theorem test_mov_load_through_own_base :
    (stepped (placed 0 [0x10, 0x08, 0x00, 0x01, 0x00] ((start 0x20 0 0).writeMem 0x20 0x99))).map
      view = some ([0x99, 0, 0, 0], 0xFFFF, 5, false, true, true) := by decide
/-- V-M5: the address wraps below 0. -/
theorem test_mov_store_wraps_below_zero :
    (stepped (placed 0 [0x10, 0x02, 0x02, 0x01, 0xFF, 0x00] (start 0x5A 0 0))).map
      (fun t => (t.readMem 0xFFFF, t.pc)) = some (0x5A, 6) := by decide
/-- V-AR1: the carry is lost. -/
theorem test_add_carry_lost :
    (stepped (placed 0 [0x11, 0x00, 0x00, 0x01] (start 0xFF 0x01 0))).map view =
      some ([0, 1, 0, 0], 0xFFFF, 4, true, false, true) := by decide
/-- V-AR4: both operands are the same byte. -/
theorem test_add_memory_to_itself :
    (stepped (placed 0 [0x11, 0x0A, 0x00, 0x40, 0x00, 0x00, 0x40, 0x00]
      (State.reset.writeMem 0x40 0x41))).map
      (fun t => (t.readMem 0x40, t.pc, t.flags.zero, t.flags.sign)) =
      some (0x82, 8, false, true) := by decide
/-- V-AR9: `S` is bit 7 of the wrapped result. -/
theorem test_sub_sign_of_wrapped_result :
    (stepped (placed 0 [0x12, 0x04, 0x00, 0x81] State.reset)).map view =
      some ([0x7F, 0, 0, 0], 0xFFFF, 4, false, false, true) := by decide
/-- V-AR10. -/
theorem test_sub_memory_minus_register :
    (stepped (placed 0 [0x12, 0x02, 0x02, 0x01, 0x01, 0x02]
      ((start 0 0x60 0x05).writeMem 0x61 0x05))).map
      (fun t => (t.readMem 0x61, t.pc, t.flags.zero)) = some (0, 6, true) := by decide
/-- V-AR11. -/
theorem test_inc_wraps :
    (stepped (placed 0 [0x20, 0x00, 0x00] (start 0xFF 0 0))).map view =
      some ([0, 0, 0, 0], 0xFFFF, 3, true, false, true) := by decide
/-- V-AR14. -/
theorem test_dec_wraps :
    (stepped (placed 0 [0x21, 0x00, 0x00] State.reset)).map view =
      some ([0xFF, 0, 0, 0], 0xFFFF, 3, false, true, true) := by decide
/-- V-AR19 and V-AR22: nothing is written. -/
theorem test_cmp_registers :
    (stepped (placed 0 [0x13, 0x00, 0x00, 0x01] (start 0x03 0x05 0))).map view =
      some ([3, 5, 0, 0], 0xFFFF, 4, false, true, true) := by decide
theorem test_cmp_immediate_first :
    (stepped (placed 0 [0x13, 0x09, 0x01, 0x01, 0x01] ((start 0 0x20 0).writeMem 0x20 2))).map
      (fun t => (t.flags.zero, t.flags.sign, t.pc, t.readMem 0x20)) =
      some (false, true, 5, 2) := by decide
/-- V-L3. -/
theorem test_and_memory :
    (stepped (placed 0 [0x14, 0x06, 0x00, 0x40, 0x00, 0x7F] (State.reset.writeMem 0x40 0xFF))).map
      (fun t => (t.readMem 0x40, t.flags.sign, t.pc)) = some (0x7F, false, 6) := by decide
/-- V-L6. -/
theorem test_or_memory :
    (stepped (placed 0 [0x15, 0x02, 0x01, 0x01, 0x02] ((start 0 0x44 0x0A).writeMem 0x44 0x50))).map
      (fun t => (t.readMem 0x44, t.flags.zero, t.pc)) = some (0x5A, false, 5) := by decide
/-- V-L9: two memory operands; the result is 0. -/
theorem test_xor_memory_to_memory :
    (stepped (placed 0 [0x16, 0x0A, 0x02, 0x01, 0x00, 0x02, 0x01, 0x01]
      (((start 0 0x40 0).writeMem 0x40 0x55).writeMem 0x41 0x55))).map
      (fun t => (t.readMem 0x40, t.readMem 0x41, t.flags.zero, t.pc)) =
      some (0, 0x55, true, 8) := by decide
/-- V-L11. -/
theorem test_not_all_ones :
    (stepped (placed 0 [0x22, 0x00, 0x00] (start 0xFF 0 0))).map view =
      some ([0, 0, 0, 0], 0xFFFF, 3, true, false, true) := by decide
/-- V-L15, V-L14. -/
theorem test_shl_by_seven :
    (stepped (placed 0 [0x23, 0x00, 0x00, 0x07] (start 0x03 0 0))).map view =
      some ([0x80, 0, 0, 0], 0xFFFF, 4, false, true, true) := by decide
theorem test_shl_bit_lost :
    (stepped (placed 0 [0x23, 0x00, 0x00, 0x01] (start 0x80 0 0))).map view =
      some ([0, 0, 0, 0], 0xFFFF, 4, true, false, true) := by decide
/-- V-L19: logical, not arithmetic. -/
theorem test_shr_is_logical :
    (stepped (placed 0 [0x24, 0x00, 0x00, 0x01] (start 0x80 0 0))).map view =
      some ([0x40, 0, 0, 0], 0xFFFF, 4, false, false, true) := by decide
/-- V-R2 with the drawn byte left free. -/
theorem test_rnd_draws_entropy :
    (stepped (placed 0 [0x25, 0x00, 0x03] State.reset)).map
      (fun t => (t.getReg 3, t.flags.zero, t.flags.sign, t.draws, t.pc)) =
      some (Config.entropy 0, Config.entropy 0 == 0, (Config.entropy 0).getLsbD 7, 1, 3) := rfl
/-- V-S2: `sp` wraps below 0. -/
theorem test_push_wraps :
    (stepped (placed 0 [0x26, 0x00, 0x00] { start 0x2A 0 0 with sp := 0 })).map
      (fun t => (t.sp, t.readMem 0xFFFF, t.pc)) = some (0xFFFF, 0x2A, 3) := by decide
/-- V-S4: the operand is read before it is overwritten. -/
theorem test_push_own_slot :
    (stepped (placed 0 [0x26, 0x02, 0x00, 0xFE, 0xFF] (State.reset.writeMem 0xFFFE 0x66))).map
      (fun t => (t.sp, t.readMem 0xFFFE, t.pc)) = some (0xFFFE, 0x66, 5) := by decide
/-- V-S7: `sp` wraps above `0xFFFF`. -/
theorem test_pop_wraps :
    (stepped (placed 0 [0x27, 0x00, 0x00] (State.reset.writeMem 0xFFFF 0x5C))).map view =
      some ([0x5C, 0, 0, 0], 0, 3, false, false, true) := by decide
/-- V-S8: a memory destination; `S` stays 0 although bit 7 of the byte is 1. -/
theorem test_pop_to_memory :
    (stepped (placed 0 [0x27, 0x02, 0x02, 0x01, 0x01]
      { (((start 0 0x40 0).writeMem 0x300 0x9C).writeMem 0x41 0x11) with sp := 0x300 })).map
      (fun t => (t.readMem 0x41, t.sp, t.flags.sign, t.pc)) = some (0x9C, 0x301, false, 5) := by
  decide
/-- V-C1. -/
theorem test_jmp :
    (stepped (placed 0x20 [0x30, 0x34, 0x12] State.reset)).map (·.pc) = some 0x1234 := by decide
/-- V-C3, V-C4. -/
theorem test_jz :
    ((stepped (placed 0x0C [0x31, 0x14, 0x00] (State.reset.setZS 0))).map (·.pc),
      (stepped (placed 0x0C [0x31, 0x14, 0x00] State.reset)).map (·.pc)) =
      (some 0x14, some 0x0F) := by decide
/-- V-C5, V-C14: not taken at the top of memory. -/
theorem test_jnz :
    ((stepped (placed 0x07 [0x32, 0x04, 0x00] State.reset)).map (·.pc),
      (stepped (placed 0xFFFD [0x32, 0x00, 0x01] (State.reset.setZS 0))).map (·.pc)) =
      (some 0x04, some 0) := by decide
/-- V-C8: the low byte of `0x0100` is pushed. -/
theorem test_call_pushes_low_byte :
    (stepped (placed 0xFD [0x33, 0x00, 0x02] (State.reset.writeMem 0xFFFE 0xEE))).map
      (fun t => (t.pc, t.sp, t.readMem 0xFFFE)) = some (0x200, 0xFFFE, 0) := by decide
/-- V-C11: the high byte of `pc` becomes 0. -/
theorem test_ret_clears_high_byte :
    (stepped (placed 0x1234 [0x01] (State.reset.writeMem 0xFFFF 0x9A))).map
      (fun t => (t.pc, t.sp)) = some (0x009A, 0) := by decide
/-- V-H1. -/
theorem test_hlt :
    (stepped (placed 0x14 [0x00] (start 1 0 0))).map view =
      some ([1, 0, 0, 0], 0xFFFF, 0x15, false, false, false) := by decide

/-! ## Transactions (V-H26), fetch words -/

/-- V-H26: a load on a halted Machine moves `pc` and `prog_end` and leaves it halted. -/
theorem test_load_on_halted :
    (match loadProgram [0x10, 0x04, 0x00, 0x09, 0x00] 0x20 { State.reset with running := false } with
      | .next t => some (t.pc, t.progEnd, t.running, (stepped t).map (·.getReg 0))
      | _ => none) = some (0x20, 0x25, false, some 0) := by decide
/-- R221: the copy wraps past `0xFFFF`. -/
theorem test_load_wraps :
    (match loadProgram [0x11, 0x22, 0x33] 0xFFFE State.reset with
      | .next t => some (t.readMem 0xFFFE, t.readMem 0xFFFF, t.readMem 0, t.progEnd)
      | _ => none) = some (0x11, 0x22, 0x33, 0x10001) := by decide
theorem test_decodeTableWord :
    (decodeTableWord 8 0x13, decodeTableWord 8 0x23, decodeTableWord 8 0x02) =
      (some (.cmp (.reg 0) (.reg 0)), some (.shl (.reg 0) 0), none) := by decide
theorem test_withFetchWord :
    (stepped (State.reset.withFetchWord 8 0x21)).map view =
      some ([0xFF, 0, 0, 0], 0xFFFF, 3, false, true, true) := by decide

/-! ## The Encoder (V-K, V-E) and the Decoder (V-D) -/

def assembled (origin : Nat) (source : String) : Option (List Byte) :=
  match assemble Config.machine origin source.toList with
  | .ok p => some p.bytes
  | .error _ => none

def asmError (origin : Nat) (source : String) : Option (Nat × String × AsmErrorKind) :=
  match assemble Config.machine origin source.toList with
  | .ok _ => none
  | .error e => some (e.line, String.ofList e.token, e.kind)

/-- R182: forward and backward labels, a label and an instruction on one line. -/
theorem test_assemble_scenario_b :
    assembled 0 "MOV ECX,#3\nloop: DEC ECX\nJNZ loop\nHLT" =
      some [0x10, 0x04, 0x02, 0x03, 0x21, 0x00, 0x02, 0x32, 0x04, 0x00, 0x00] := by decide
/-- V-K1: letter case, white space, a comment. -/
theorem test_assemble_lexical :
    assembled 0 "mov eax , #72 ; comment" = some [0x10, 0x04, 0x00, 0x48] := by decide
/-- V-K8: a label as an immediate is its low byte. -/
theorem test_assemble_label_as_immediate :
    assembled 0x1230 "MOV EAX,tab\nHLT\ntab: HLT" =
      some [0x10, 0x04, 0x00, 0x35, 0x00, 0x00] := by decide
/-- V-K14: labels are case-sensitive. -/
theorem test_assemble_label_case :
    assembled 0 "Loop: JMP loop\nloop: HLT" = some [0x30, 0x03, 0x00, 0x00] := by decide
/-- V-E28: a Pass 1 error wins over a Pass 2 error on an earlier line. -/
theorem test_assemble_pass_one_error_first :
    asmError 0 "JMP nowhere\nFOO" = some (2, "FOO", .unknownMnemonic) := by decide
/-- V-E27. -/
theorem test_assemble_too_large :
    asmError 0xFFFD "MOV EAX,#1" = some (1, "-", .tooLarge) := by decide
/-- V-E7, V-E10. -/
theorem test_assemble_brackets :
    (asmError 0 "MOV EAX,[loop]\nloop: HLT", asmError 0 "MOV EAX,[EBX+128]") =
      (some (1, "[loop]", .unknownRegister), some (1, "[EBX+128]", .badBracket)) := by decide
/-- A configuration whose register names are `%a` to `%h`. -/
def percentNames : Config := { Config.machine with regName := fun r => ['%', Char.ofNat (97 + r.val)] }

/-- R168, R170: a configured name is a register inside brackets too, identifier or not, alone and before
an offset; an unsigned literal goes first (log entry 15). -/
theorem test_bracket_takes_configured_names :
    ["%b", "[%b]", "[%b - 1]", "[16]", "[%z]", "[z]"].map (fun t => parseOperand percentNames t.toList) =
      [.ok (.reg 1), .ok (.mem (.ind 1)), .ok (.mem (.off 1 0xFF)), .ok (.mem (.abs 16)),
        .error .badBracket, .error .unknownRegister] := by decide

/-- R169: `#` without a literal is a label reference; with a closing bracket R167's try 3 comes first
(log entry 15). -/
theorem test_hash_without_literal :
    ["#x", "#x]", "#[16]"].map (fun t => parseOperand Config.machine t.toList) =
      [.ok (.ref (.label ['#', 'x'])), .error .badBracket, .error .badBracket] := by decide

/-- V-E25: register names win over labels. -/
theorem test_assemble_register_before_label :
    asmError 0 "eax: HLT\nJMP eax" = some (2, "eax", .badJumpOperand) := by decide

/-- The memory of V-D1. -/
def listingMemory : Memory :=
  Memory.writeBytes [] 0x200 [0x10, 0x04, 0x00, 0x48, 0xFF, 0x10, 0x0C, 0x21, 0x00, 0x02, 0x23, 0x00,
    0x00, 0x08, 0x30, 0x34, 0x12, 0x00, 0x10, 0x04]

def listing (m : Memory) (start stop : Nat) : List (Nat × Nat × String) :=
  (disassemble Config.machine m start stop).map
    (fun e => (e.address, e.raw.length, String.ofList e.text))

/-- V-D1: raw bytes resynchronise, and the listing stops after HLT. -/
theorem test_listing :
    listing listingMemory 0x200 0x214 =
      [(0x200, 4, "MOV EAX,#72"), (0x204, 1, "DB 0xFF"), (0x205, 1, "DB 0x10"),
        (0x206, 1, "DB 0x0C"), (0x207, 3, "DEC ECX"), (0x20A, 1, "DB 0x23"),
        (0x20B, 1, "HLT")] := by decide
/-- V-D2: an instruction cut by the end of the range. -/
theorem test_listing_cut :
    listing listingMemory 0x200 0x203 =
      [(0x200, 1, "DB 0x10"), (0x201, 1, "DB 0x04"), (0x202, 1, "HLT")] := by decide
/-- V-D4: the top of memory. -/
theorem test_listing_top :
    listing (Memory.writeBytes [] 0xFFFD [0x30, 0x00, 0x10]) 0xFFFD 0x10000 =
      [(0xFFFD, 3, "JMP 0x1000")] := by decide

/-! ## Witnesses of the obligations' hypotheses -/

/-- For the statements `WritesB`, `WritesU` and `WritesUS` (MOV, ADD, SUB, AND, OR, XOR, INC, DEC,
NOT, SHL, SHR, RND), PUSH, POP and CALL: a canonical memory with each writable operand form; and the
immediate form. -/
theorem witness_result_statements :
    (start 0x12 0 0).mem.wf ∧ (Operand.reg 0).writable = true ∧
      (Operand.mem (.abs 0xFFFF)).writable = true ∧ (Operand.mem (.ind 0)).writable = true ∧
      (Operand.mem (.off 0 0x80)).writable = true ∧ (Operand.imm 5).writable = false := by decide

/-- JzJumpsIffZero and JnzJumpsIffNotZero: both values of `Z`. -/
theorem witness_conditional_jumps :
    (State.reset.setZS 0).flags.zero = true ∧ State.reset.flags.zero = false := by decide

/-- FlagsWrittenByExactlyThirteen: a flag writer, an instruction that is none, and a halting step. -/
theorem witness_FlagsWrittenByExactlyThirteen :
    (Instr.inc (.reg 0)).wellFormed = true ∧
      exec (.inc (.reg 0)) State.reset =
        .next (((State.reset.setReg 0 1).setZS 1).advance 3) ∧
      (Instr.push (.imm 1)).wellFormed = true ∧
      exec (.push (.imm 1)) State.reset = .next ((State.reset.pushByte 1).advance 3) ∧
      step State.reset = .next (State.reset.raiseHalt .hlt) ∧
      (State.reset.raiseHalt .hlt).running = false := ⟨rfl, rfl, rfl, rfl, rfl, rfl⟩

/-- OnlyDestinationRegisterChanges and OnlyStoredByteChanges: INC of register 0 with another register
and any address; PUSH with another address; a store at the top address with its neighbour. -/
theorem witness_frames :
    exec (.inc (.reg 0)) State.reset = .next (((State.reset.setReg 0 1).setZS 1).advance 3) ∧
      Claims.destReg (.inc (.reg 0)) ≠ some 1 ∧
      Claims.storeAddr (.inc (.reg 0)) State.reset ≠ some 0xFFFF ∧
      Claims.storeAddr (.push (.imm 1)) State.reset ≠ some 0xFFFF ∧
      Claims.storeAddr (.inc (.mem (.off 0 0xFF))) State.reset = some 0xFFFF ∧
      Claims.storeAddr (.inc (.mem (.off 0 0xFF))) State.reset ≠ some 0xFFFE :=
  ⟨rfl, by decide, by decide, by decide, by decide, by decide⟩

/-- OnlyStackInstructionsMoveStackPointer, PcGoesToTargetOrSuccessor, CanonicalInstructionsKeepReservedState:
well-formed instructions with a next state, `sp` and `pc` at their bounds. -/
theorem witness_whole_machine_frames :
    (Instr.push (.imm 1)).wellFormed = true ∧
      exec (.push (.imm 1)) { State.reset with sp := 0, pc := 0xFFFD } =
        .next ((State.pushByte { State.reset with sp := 0, pc := 0xFFFD } 1).advance 3) ∧
      Instr.hlt.wellFormed = true ∧
      exec .hlt State.reset = .next (State.reset.raiseHalt .hlt) ∧
      (Instr.rnd (.reg 0)).wellFormed = true ∧ (exec (.rnd (.reg 0)) State.reset matches .next _) =
        true := ⟨rfl, rfl, rfl, rfl, rfl, rfl⟩

/-- StepRunsTheDecodedInstruction. -/
theorem witness_StepRunsTheDecodedInstruction :
    (placed 0xFFFD [0x30, 0x34, 0x12] State.reset).running = true ∧
      decodeAt Config.machine.opcode (placed 0xFFFD [0x30, 0x34, 0x12] State.reset).mem 0xFFFD =
        .ok (.jmp 0x1234, 3) := by decide

/-- InvalidEncodingHalts: one state for each of the seven causes. -/
theorem witness_InvalidEncodingHalts :
    [cause 0 [0xFF], cause 0xFFFF [0x10], cause 0 [0x10, 0x0C], cause 0 [0x20, 0x01],
      cause 0 [0x20, 0x00, 0x08], cause 0 [0x20, 0x02, 0x03], cause 0 [0x23, 0x00, 0x00, 0x08]] =
      [some .unknownOpcode, some .fetchPastEnd, some .badMode, some .immDest, some .badReg,
        some .badSubmode, some .badCount] := by decide

/-- HaltedStepChangesNothing. -/
theorem witness_HaltedStepChangesNothing : (State.reset.raiseHalt .hlt).running = false := rfl

/-- HaltsArePrecise and HaltCauseIsRecoverable: a running state whose step halts, by HLT and by a
non-canonical encoding. -/
theorem witness_halting_steps :
    State.reset.running = true ∧ step State.reset = .next (State.reset.raiseHalt .hlt) ∧
      (State.reset.raiseHalt .hlt).running = false ∧
      (stepped (placed 0 [0x20, 0x01] State.reset)).map (·.running) = some false :=
  ⟨rfl, rfl, rfl, by decide⟩

/-- UnknownOpcodeActsAsHlt: `0xFF` is no opcode. -/
theorem witness_UnknownOpcodeActsAsHlt :
    ∀ m : Mnemonic, Config.machine.opcode m ≠ (placed 0 [0xFF] State.reset).readMem 0 := by
  intro m
  rcases m with o | o | o | o | o <;> cases o <;> decide

/-- NoInstructionCrossesTheEnd, EncodeOfDecode, DecodeNeverLooksAhead: something decodes. -/
theorem witness_decoding :
    decodeAt Config.machine.opcode [] 0xFFFF = .ok (.hlt, 1) ∧
      decodeWith Config.machine.opcode [0x21, 0x00, 0x02, 0xEE] = .ok (.dec (.reg 2), 3) := by decide

/-- The instruction at `pc` and, where the step under `PC_WRAP = fault` answers a state, its `pc`. -/
def cautiousStep (pc : Nat) (bytes : List Byte) : Option Instr × Option Addr :=
  let s := placed pc bytes State.reset
  (match decodeAt Config.machine.opcode s.mem s.pc.toNat with
    | .ok (i, _) => some i
    | .error _ => none,
   match stepUnder { Config.machine with pcWrap := .fault } s with
    | .next t => some t.pc
    | _ => none)

/-- CautiousPcWrapFaults, a state for each clause: an instruction that ends at `0xFFFF` and falls
through, a jump there, HLT there (R155: `pc = 0`), and an instruction that ends one byte lower. -/
theorem witness_CautiousPcWrapFaults :
    [cautiousStep 0xFFFD [0x20, 0x00, 0x00], cautiousStep 0xFFFD [0x30, 0x34, 0x12],
      cautiousStep 0xFFFF [0x00], cautiousStep 0xFFFC [0x20, 0x00, 0x00]] =
      [(some (.inc (.reg 0)), none), (some (.jmp 0x1234), some 0x1234),
        (some .hlt, some 0x0000), (some (.inc (.reg 0)), some 0xFFFF)] ∧
      transfersControl (.inc (.reg 0)) State.reset = false ∧
      transfersControl (.jmp 0x1234) State.reset = true := by decide

/-- CautiousStepsRefineSteps: a step under both cautious settings that answers a state. -/
theorem witness_CautiousStepsRefineSteps :
    stepUnder { Config.machine with pcWrap := .fault, nonCanonical := .fault } State.reset =
      .next (State.reset.raiseHalt .hlt) := rfl

/-- UnreadStateHasNoInfluence: two different states that agree on what is read. -/
theorem witness_UnreadStateHasNoInfluence :
    Claims.SameButUnread State.reset
        { State.reset with progEnd := 7, flags := ⟨false, true, true, true⟩ } ∧
      step State.reset = .next (State.reset.raiseHalt .hlt) :=
  ⟨⟨rfl, rfl, rfl, rfl, rfl, rfl, rfl⟩, rfl⟩

/-- EntropyMattersOnlyToRnd: a step that is no RND, and the trivial choice of `n` for one that is. -/
theorem witness_EntropyMattersOnlyToRnd :
    (∀ p len, decodeAt Config.machine.opcode State.reset.mem State.reset.pc.toNat ≠
        .ok (.rnd p, len)) ∧
      step State.reset = .next (State.reset.raiseHalt .hlt) ∧
      Config.entropy State.reset.draws = Config.entropy State.reset.draws := by
  refine ⟨fun p len => ?_, rfl, rfl⟩
  rw [show decodeAt Config.machine.opcode State.reset.mem State.reset.pc.toNat = .ok (.hlt, 1) from
    by decide]
  simp

/-- DecodeOfEncode and TruncatedInstructionIsPastEnd: an injective opcode map, a canonical
instruction, and a cut just before its end. -/
theorem witness_encoding :
    Function.Injective Config.machine.opcode ∧
      (Instr.mov (.mem (.abs 0x40)) (.mem (.abs 0x41))).wellFormed = true ∧
      7 < (Instr.mov (.mem (.abs 0x40)) (.mem (.abs 0x41))).length :=
  ⟨defaultOpcode_injective, by decide, by decide⟩

/-- LoadProgramCopiesAtBase: the highest base, a load that wraps, and an address outside it. -/
theorem witness_LoadProgramCopiesAtBase :
    State.reset.mem.wf ∧ 65535 ≤ 65535 ∧ ([1, 2] : List Byte).length ≤ 65536 ∧
      ∀ k < ([1, 2] : List Byte).length, (0x0001 : Addr).toNat ≠ (65535 + k) % 65536 := by decide

/-- StepKeepsInvariant and TransactionsKeepInvariant: a state that meets the invariant and steps, one
with memory written and one from a load. -/
theorem witness_invariant :
    (State.reset.writeMem 0x20 0x99).mem.wf ∧
      (State.reset.writeMem 0x20 0x99).flags.carry = false ∧
      (State.reset.writeMem 0x20 0x99).flags.overflow = false ∧
      (State.reset.writeMem 0x20 0x99).progEnd ≤ 131071 ∧
      (stepped (State.reset.writeMem 0x20 0x99)).isSome = true ∧
      (match transact Config.machine (.loadProgram [1] 65535) State.reset with
        | .next _ => true
        | _ => false) = true := by decide

/-- PopsReturnPushedBytesInReverse: two pushes and two pops. -/
theorem witness_PopsReturnPushedBytesInReverse :
    State.reset.mem.wf ∧ ([.imm 1, .reg 0] : List Operand).length ≤ 65536 ∧
      ([0, 1] : List Reg).length = ([.imm 1, .reg 0] : List Operand).length ∧
      (Claims.pushAll [.imm 1, .reg 0] State.reset).map (·.1) = some [1, 0] := by decide

/-- RetAfterCallReturnsInPageZero: a CALL with a next state. -/
theorem witness_RetAfterCallReturnsInPageZero :
    State.reset.mem.wf ∧
      exec (.call 0x0200) State.reset = .next ((State.reset.pushByte 3).jumpTo 0x0200) :=
  ⟨by decide, rfl⟩

/-- ListingCoversTheRange: the whole of memory, and an empty range at its end. -/
theorem witness_ListingCoversTheRange :
    (0 : Nat) ≤ 65536 ∧ (65536 : Nat) ≤ 65536 := by decide

/-- PassOneAddressesAreExact and AssembledBytesAreCanonical: a source that assembles, with a label of its
own line, one on an instruction's line and one after the last instruction, a comment and a blank line
between, references forward and backward, one of them in a value byte. -/
theorem witness_assembly :
    (match passOne Config.machine 0x1FE " b: ; c\na: MOV EAX,e\n\nJMP b\nJZ e\ne:".toList with
      | .ok st => some (st.pc, st.symtab, st.items.map (fun item => (item.line, item.addr)))
      | .error _ => none) =
        some (0x208, [(['b'], 0x1FE), (['a'], 0x1FE), (['e'], 0x208)],
          [(2, 0x1FE), (4, 0x202), (5, 0x205)]) ∧
      assembled 0x1FE " b: ; c\na: MOV EAX,e\n\nJMP b\nJZ e\ne:" =
        some [0x10, 0x04, 0x00, 0x08, 0x30, 0xFE, 0x01, 0x31, 0x08, 0x02] := by decide

end Sys2Proof.Tests
end

section
/-! PROOFS, family 10_state.md. What a step can do, what executing an instruction can do to the flags,
and the statement that exactly thirteen instructions write `Z` and `S` (R28). -/

namespace Sys2Proof.Machine

open Sys2Proof Sys2Proof.Claims

/-! ## What a step can do -/

@[simp] theorem machine_nonCanonical : Config.machine.nonCanonical = .halt := rfl
@[simp] theorem machine_pcWrap : Config.machine.pcWrap = .wrap := rfl

theorem step_of_halted {s : State} (h : s.running = false) : step s = .next s := by
  simp [step, stepUnder, h]

theorem step_of_decode_error {s : State} {cause : HaltCause} (hrun : s.running = true)
    (h : decodeAt Config.machine.opcode s.mem s.pc.toNat = .error cause) :
    step s = .next (s.raiseHalt cause) := by
  simp [step, stepUnder, hrun, h]

theorem step_of_decode_ok {s : State} {i : Instr} {len : Nat} (hrun : s.running = true)
    (h : decodeAt Config.machine.opcode s.mem s.pc.toNat = .ok (i, len)) : step s = exec i s := by
  simp [step, stepUnder, hrun, h]

/-- Everything a step can answer (R91, R92 and decision D12). -/
theorem step_cases {s t : State} (h : step s = .next t) :
    (s.running = false ∧ t = s) ∨
    (s.running = true ∧ ∃ cause,
      decodeAt Config.machine.opcode s.mem s.pc.toNat = .error cause ∧ t = s.raiseHalt cause) ∨
    (s.running = true ∧ ∃ i len,
      decodeAt Config.machine.opcode s.mem s.pc.toNat = .ok (i, len) ∧ exec i s = .next t) := by
  cases hrun : s.running with
  | false =>
    rw [step_of_halted hrun] at h
    injection h with h
    exact .inl ⟨rfl, h.symm⟩
  | true =>
    cases hd : decodeAt Config.machine.opcode s.mem s.pc.toNat with
    | error cause =>
      rw [step_of_decode_error hrun hd] at h
      injection h with h
      exact .inr (.inl ⟨rfl, cause, rfl, h.symm⟩)
    | ok r =>
      obtain ⟨i, len⟩ := r
      rw [step_of_decode_ok hrun hd] at h
      exact .inr (.inr ⟨rfl, i, len, rfl, h⟩)

/-! ## Byte results as numbers -/

theorem toNat_byte_sub (x y : Byte) : (x - y).toNat = (x.toNat + 256 - y.toNat) % 256 := by
  rw [BitVec.toNat_sub]
  omega

theorem toNat_byte_shiftLeft (x : Byte) (n : Nat) : (x <<< n).toNat = x.toNat * 2 ^ n % 256 := by
  rw [BitVec.toNat_shiftLeft, Nat.shiftLeft_eq]

theorem toNat_byte_shiftRight (x : Byte) (n : Nat) : (x >>> n).toNat = x.toNat / 2 ^ n := by
  rw [BitVec.toNat_ushiftRight, Nat.shiftRight_eq_div_pow]

/-- R104: `setZS` sets `Z` and `S` as the number of its byte says. -/
theorem flagsFrom_of_setZS {s t : State} {r : Byte} (h : t.flags = (s.setZS r).flags) :
    FlagsFrom s t r.toNat := by
  have hzero : (r == 0) = decide (r.toNat = 0) := by
    rw [Bool.eq_iff_iff, beq_iff_eq, decide_eq_true_iff]
    exact BitVec.toNat_inj.symm
  have hsign : r.getLsbD 7 = decide (128 ≤ r.toNat) := BitVec.msb_eq_decide r
  rw [FlagsFrom, h]
  exact ⟨hzero, hsign, rfl, rfl⟩

/-! ## What executing an instruction can do to the flags -/

/-- How `exec i s` can leave the flags: the instruction is not canonical and they stand, or it has a
result whose zero and sign they take while the running bit stands, or it has none and they stand. -/
inductive FlagEffect (i : Instr) (s t : State) : Prop where
  | rejected (hwf : i.wellFormed = false) (hflags : t.flags = s.flags)
  | written (r : Byte) (hresult : resultOf s i = some r.toNat)
      (hflags : t.flags = (s.setZS r).flags) (hrunning : t.running = s.running)
  | kept (hresult : resultOf s i = none) (hflags : t.flags = s.flags)

/-- The shared completion of the twelve instructions that write their result. It may start from a
state `u` other than `s` (RND consumes its draw first) with the same flags and running bit. -/
theorem flagEffect_of_finishResult {i : Instr} {s u t : State} {len : Nat} {p : Operand} {r : Byte}
    (huf : u.flags = s.flags) (hur : u.running = s.running) (hwf : i.wellFormed = p.writable)
    (hresult : resultOf s i = some r.toNat) (h : u.finishResult len p r = .next t) :
    FlagEffect i s t := by
  obtain ⟨hp, rfl⟩ | ⟨d, -, rfl⟩ := State.finishResult_cases h
  · exact .rejected (hwf.trans (u.placeOf_eq_none.mp hp)) (by simp [huf])
  · exact .written r hresult (by simp [huf]) (by simp [hur])

/-- RND: the completion after a draw, or the halt of an immediate operand 0. -/
theorem flagEffect_execRnd {p : Operand} {s t : State} (h : execRnd p s = .next t) :
    FlagEffect (.rnd p) s t := by
  cases hp : s.placeOf p with
  | none =>
    simp only [execRnd, hp, Host.Outcome.next.injEq] at h
    exact .rejected (s.placeOf_eq_none.mp hp) (by simp [← h])
  | some d =>
    simp only [execRnd, hp] at h
    exact flagEffect_of_finishResult s.consumeDraw_flags s.consumeDraw_running rfl rfl h

/-- POP writes its operand and no flag. -/
theorem execPop_flags {p : Operand} {s t : State} (h : execPop p s = .next t) :
    t.flags = s.flags := by
  simp only [execPop] at h
  split at h
  · injection h with h
    simp [← h]
  · injection h with h
    simp [← h]

/-- Every arm of `exec` has one of the three effects. -/
theorem exec_flagEffect {i : Instr} {s t : State} (h : exec i s = .next t) :
    FlagEffect i s t := by
  have finish {len p r} := @flagEffect_of_finishResult i s s t len p r rfl rfl
  cases i with
  | mov p q => exact finish rfl rfl h
  | add p q => exact finish rfl (congrArg some (BitVec.toNat_add _ _).symm) h
  | sub p q => exact finish rfl (congrArg some (toNat_byte_sub _ _).symm) h
  | and p q => exact finish rfl (congrArg some (BitVec.toNat_and _ _).symm) h
  | or p q => exact finish rfl (congrArg some (BitVec.toNat_or _ _).symm) h
  | xor p q => exact finish rfl (congrArg some (BitVec.toNat_xor _ _).symm) h
  | inc p => exact finish rfl (congrArg some (BitVec.toNat_add _ 1).symm) h
  | dec p => exact finish rfl (congrArg some (toNat_byte_sub _ 1).symm) h
  | not p => exact finish rfl (congrArg some (BitVec.toNat_not (x := s.readOp p)).symm) h
  | shl p count => exact finish rfl (congrArg some (toNat_byte_shiftLeft _ _).symm) h
  | shr p count => exact finish rfl (congrArg some (toNat_byte_shiftRight _ _).symm) h
  | rnd p => exact flagEffect_execRnd h
  | cmp p q =>
    injection h with h
    exact .written (s.readOp p - s.readOp q) (congrArg some (toNat_byte_sub _ _).symm)
      (by simp [← h]) (by simp [← h])
  | pop p => exact .kept rfl (execPop_flags h)
  | jz | jnz =>
    injection h with h
    exact .kept rfl (by rw [← h]; split <;> rfl)
  | hlt | ret | push | jmp | call =>
    injection h with h
    exact .kept rfl (by simp [← h])

/-! ## R28 -/

/-- The flags of a canonical flag writer follow its result. -/
theorem exec_flagsFrom_of_result {i : Instr} {s t : State} {r : Nat} (hwf : i.wellFormed = true)
    (hr : resultOf s i = some r) (h : exec i s = .next t) : FlagsFrom s t r := by
  cases exec_flagEffect h with
  | rejected hnot _ => simp [hwf] at hnot
  | written b hresult hflags _ =>
    obtain rfl : r = b.toNat := Option.some.inj (hr.symm.trans hresult)
    exact flagsFrom_of_setZS hflags
  | kept hresult _ => simp [hr] at hresult

/-- An instruction without a result keeps the flags. -/
theorem exec_flags_of_no_result {i : Instr} {s t : State} (hr : resultOf s i = none)
    (h : exec i s = .next t) : t.flags = s.flags := by
  cases exec_flagEffect h with
  | rejected _ hflags => exact hflags
  | written b hresult _ _ => simp [hr] at hresult
  | kept _ hflags => exact hflags

/-- A flag writer keeps the running bit, so what clears it keeps the flags. -/
theorem exec_flags_of_halts {i : Instr} {s t : State} (hrun : s.running = true)
    (hhalt : t.running = false) (h : exec i s = .next t) : t.flags = s.flags := by
  cases exec_flagEffect h with
  | rejected _ hflags => exact hflags
  | written _ _ _ hrunning => simp [hrunning, hrun] at hhalt
  | kept _ hflags => exact hflags

theorem step_flags_of_halts {s t : State} (hhalt : t.running = false) (h : step s = .next t) :
    t.flags = s.flags := by
  obtain ⟨-, rfl⟩ | ⟨-, cause, -, rfl⟩ | ⟨hrun, i, len, -, hexec⟩ := step_cases h
  · rfl
  · exact s.raiseHalt_flags cause
  · exact exec_flags_of_halts hrun hhalt hexec

/-- Settles O25: by the effect of every instruction on the flags, and by the cases of a step. -/
theorem flagsWrittenByExactlyThirteen : Obligations.FlagsWrittenByExactlyThirteen := by
  unfold Obligations.FlagsWrittenByExactlyThirteen
  refine ⟨fun i s t hwf h => ?_, fun s t h hhalt => step_flags_of_halts hhalt h⟩
  cases hr : resultOf s i with
  | some r => exact exec_flagsFrom_of_result hwf hr h
  | none => exact exec_flags_of_no_result hr h

end Sys2Proof.Machine
end

section
/-! PROOFS, family 40_step_and_operands.md. The step under `PC_WRAP = fault` (R94), the kinds of an
operand (R100) and the flags of a result (R104). -/

namespace Sys2Proof.Machine

open Sys2Proof Sys2Proof.Claims

/-! ## The step under any configuration -/

/-- R94: what falls through past the last byte of memory. -/
theorem fallsPastEnd_eq_true_iff {i : Instr} {len : Nat} {s : State} :
    fallsPastEnd i len s = true ↔
      s.pc.toNat + len = 65536 ∧ transfersControl i s = false ∧ i ≠ .hlt := by
  simp [fallsPastEnd, fallsThrough]

/-- The one step that `PC_WRAP = fault` refuses to take. -/
theorem stepUnder_of_fallsPastEnd {c : Config} {s : State} {i : Instr} {len : Nat}
    (hwrap : c.pcWrap = .fault) (hrun : s.running = true)
    (hd : decodeAt c.opcode s.mem s.pc.toNat = .ok (i, len))
    (hpast : fallsPastEnd i len s = true) : stepUnder c s = .fault .pcPastEnd := by
  simp [stepUnder, hwrap, hrun, hd, hpast]

/-- Every other decoded instruction runs, whatever `PC_WRAP` is. -/
theorem stepUnder_of_not_fallsPastEnd {c : Config} {s : State} {i : Instr} {len : Nat}
    (hrun : s.running = true) (hd : decodeAt c.opcode s.mem s.pc.toNat = .ok (i, len))
    (hpast : ¬ fallsPastEnd i len s = true) : stepUnder c s = exec i s := by
  simp [stepUnder, hrun, hd, hpast]

/-- R155, R201: HLT leaves the halt state. -/
theorem exec_hlt_eq_haltOf (s : State) : exec .hlt s = .next (haltOf s) := rfl

/-- Settles O40: only what falls through past the end faults, and a transfer, HLT and an instruction
that ends elsewhere each miss one condition of that. -/
theorem cautiousPcWrapFaults : Obligations.CautiousPcWrapFaults := by
  unfold Obligations.CautiousPcWrapFaults
  intro c s i len hwrap hrun hd
  have runs (hpast : ¬ fallsPastEnd i len s = true) : stepUnder c s = exec i s :=
    stepUnder_of_not_fallsPastEnd hrun hd hpast
  rw [fallsPastEnd_eq_true_iff] at runs
  refine ⟨fun hend hkeeps hhlt => ?falls, fun _ htransfers => ?transfers, fun _ hhlt => ?halts,
    fun helse => ?elsewhere⟩
  case falls =>
    exact stepUnder_of_fallsPastEnd hwrap hrun hd
      (fallsPastEnd_eq_true_iff.mpr ⟨hend, hkeeps, hhlt⟩)
  case transfers => exact runs fun ⟨_, hkeeps, _⟩ => by simp [htransfers] at hkeeps
  case halts =>
    rw [runs fun ⟨_, _, hne⟩ => hne hhlt, hhlt]
    exact exec_hlt_eq_haltOf s
  case elsewhere => exact runs fun ⟨hend, _, _⟩ => helse hend

/-! ## Operands and flags -/

@[simp] theorem State.readOp_reg (s : State) (r : Reg) : s.readOp (.reg r) = s.getReg r := rfl
@[simp] theorem State.readOp_imm (s : State) (v : Byte) : s.readOp (.imm v) = v := rfl
@[simp] theorem State.readOp_mem (s : State) (m : MemRef) :
    s.readOp (.mem m) = s.readMem (s.effAddr m) := rfl

/-- Settles O22: one reading rule per operand kind. -/
theorem operandReadsByKind : Obligations.OperandReadsByKind := by
  unfold Obligations.OperandReadsByKind
  exact fun s => ⟨s.readOp_reg, s.readOp_imm, s.readOp_mem⟩

/-- Settles O24: the flags of `setZS` are those of its byte as a number. -/
theorem setZSFollowsTheResult : Obligations.SetZSFollowsTheResult := by
  unfold Obligations.SetZSFollowsTheResult
  intro s r
  obtain ⟨hzero, hsign, hcarry, hoverflow⟩ := flagsFrom_of_setZS (s := s) (r := r) rfl
  exact ⟨by rw [hzero, decide_eq_true_iff], by rw [hsign, decide_eq_true_iff], hcarry, hoverflow⟩

end Sys2Proof.Machine
end

section
/-! PROOFS, family 41_move.md. What an instruction that ends in `finishResult` completes (R96, R101,
R105), and what every instruction of format B that writes operand 0 does (R63, R72, R78, R81); MOV
(R110) is the one whose result is operand 1 as it stands. -/

namespace Sys2Proof.Machine

open Sys2Proof Sys2Proof.Claims

/-! ## What a completed result leaves behind -/

@[simp] theorem State.placeByte_setZS (s : State) (r : Byte) (d : Place) :
    (s.setZS r).placeByte d = s.placeByte d := by cases d <;> rfl
@[simp] theorem State.placeByte_advance (s : State) (len : Nat) (d : Place) :
    (s.advance len).placeByte d = s.placeByte d := by cases d <;> rfl

/-- The result statement for each operand kind follows from one about places: the named place holds
the byte and every other place holds what it held. -/
theorem resultAt_of_placeByte {s t : State} {p : Operand} {d : Place} {r : Byte}
    (hp : s.placeOf p = some d) (hsame : t.placeByte d = r)
    (hother : ∀ e, e ≠ d → t.placeByte e = s.placeByte e) : ResultAt s t p r.toNat := by
  cases p with
  | reg k =>
    obtain rfl : Place.reg k = d := Option.some.inj hp
    exact ⟨congrArg BitVec.toNat hsame, fun j hj => hother (.reg j) (by simpa using hj),
      fun a => hother (.mem a) (by simp)⟩
  | imm v => simp [State.placeOf] at hp
  | mem m =>
    obtain rfl : Place.mem (s.effAddr m) = d := Option.some.inj hp
    exact ⟨congrArg BitVec.toNat hsame, fun a ha => hother (.mem a) (by simpa using ha),
      fun k => hother (.reg k) (by simp)⟩

/-- R12: `advance` moves `pc` to the sequential successor. -/
theorem pcAfter_of_advance {s t : State} {len : Nat} (h : t.pc = s.pc + BitVec.ofNat 16 len) :
    PcAfter s t len := by
  rw [PcAfter, h, BitVec.toNat_add, BitVec.toNat_ofNat, Nat.add_mod_mod]

/-- An instruction that ends in `finishResult`, possibly after consuming draws, completes with that
result when operand 0 is writable. -/
theorem completes_of_finishResult {i : Instr} {p : Operand} {r : Byte} {draws : Nat} {s : State}
    (hp : p.writable = true) (hwf : s.mem.wf)
    (h : exec i s = State.finishResult { s with draws := s.draws + draws } i.length p r) :
    Completes i p r.toNat draws s := by
  obtain ⟨d, hd, -⟩ := State.placeOf_of_writable { s with draws := s.draws + draws } hp
  rw [State.finishResult_of_place _ _ r hd] at h
  refine ⟨_, h, resultAt_of_placeByte (d := d) ?place ?same fun e he => ?other,
    flagsFrom_of_setZS ?flags, pcAfter_of_advance ?pc, ?kept⟩
  case place => exact (State.placeOf_congr (fun _ => rfl) p).symm.trans hd
  case same => simp [State.placeByte_writePlace_same (s := { s with draws := s.draws + draws }) hwf]
  case other =>
    rw [State.placeByte_advance, State.placeByte_setZS, State.placeByte_writePlace_other _ r he]
    cases e <;> rfl
  case flags => simp
  case pc => simp
  case kept => simp

/-! ## Format B with a written operand 0 -/

theorem lengthB_bounds (p q : Operand) : 4 ≤ lengthB p q ∧ lengthB p q ≤ 8 := by
  have := p.length_pos
  have := p.length_le
  have := q.length_pos
  have := q.length_le
  simp only [lengthB]
  omega

/-- R63, R72: the six mode bytes of a writable operand 0 beside any operand 1. -/
theorem modeB_mem_of_writable {p : Operand} (q : Operand) (hp : p.writable = true) :
    modeB p q ∈ ([0x00, 0x04, 0x08, 0x02, 0x06, 0x0A] : List Byte) := by
  cases p with
  | reg r => cases q <;> simp [modeB, Operand.tag, tagBits]
  | imm v => simp [Operand.writable] at hp
  | mem m => cases q <;> simp [modeB, Operand.tag, tagBits]

/-- R81 `IMM_DEST`: the destination check rejects what is not writable. -/
theorem checkDest_of_not_writable {p : Operand} (hp : p.writable = false) :
    checkDest true p.tag = .error .immDest := by
  cases p with
  | reg r => simp [Operand.writable] at hp
  | imm v => rfl
  | mem m => simp [Operand.writable] at hp

/-- The decoder reads the opcode byte of an encoding and goes on with the body of its mnemonic. -/
theorem decodeRest_opcode (m : Mnemonic) (bs : List Byte) :
    decodeRest Config.machine.opcode (Config.machine.opcode m :: bs) = decodeBody m bs := by
  have hlookup : lookupOpcode Config.machine.opcode (Config.machine.opcode m) = some m :=
    lookupOpcode_self defaultOpcode_injective m
  simp [decodeRest, bind, Except.bind, hlookup]

/-- A rejected body is a rejected encoding, with the same cause. -/
theorem decode_of_decodeBody_error {m : Mnemonic} {bs : List Byte} {cause : HaltCause}
    (h : decodeBody m bs = .error cause) :
    decode (Config.machine.opcode m :: bs) = .error cause := by
  simp [decode, decodeWith, decodeRest_opcode, h, bind, Except.bind]

theorem decode_encodeB_of_not_writable {o : BOp} {p : Operand} (q : Operand) (rest : List Byte)
    (ho : o.writes = true) (hp : p.writable = false) :
    decode (encodeB Config.machine.opcode o p q ++ rest) = .error .immDest := by
  refine decode_of_decodeBody_error (m := .b o) ?_
  simp [decodeBody, decodeB, ho, checkDest_of_not_writable hp, bind, Except.bind]

theorem encode_instrB (o : BOp) (p q : Operand) :
    encode (instrB p q o) = encodeB Config.machine.opcode o p q := by cases o <;> rfl

theorem instrB_length (o : BOp) (p q : Operand) : (instrB p q o).length = lengthB p q := by
  cases o <;> rfl

/-- What a format B instruction does whose meaning ends in `finishResult` with the byte `g` of its
operands, where `f` is `g` on numbers. -/
theorem writesB_of_finishResult {o : BOp} {f : Nat → Nat → Nat} {g : Byte → Byte → Byte}
    (ho : o.writes = true) (hg : ∀ u v, (g u v).toNat = f u.toNat v.toNat)
    (hexec : ∀ p q s, exec (instrB p q o) s =
      s.finishResult (lengthB p q) p (g (s.readOp p) (s.readOp q))) :
    WritesB (Config.machine.opcode (.b o)) (fun p q => instrB p q o) f := by
  intro p q s
  obtain ⟨hlo, hhi⟩ := lengthB_bounds p q
  simp only [encode_instrB, instrB_length]
  refine ⟨rfl, hlo, hhi, modeB_mem_of_writable q, fun hp hwf => ?completes,
    fun hp => ⟨fun rest => ?rejects, ?halts⟩⟩
  case completes =>
    rw [← hg]
    exact completes_of_finishResult hp hwf (by rw [hexec, instrB_length]; rfl)
  case rejects =>
    rw [encode_instrB]
    exact decode_encodeB_of_not_writable q rest ho hp
  case halts =>
    rw [hexec, State.finishResult_of_imm _ _ _ ((State.placeOf_eq_none s).mpr hp)]
    rfl

/-! ## R110 -/

theorem exec_mov (p q : Operand) (s : State) :
    exec (.mov p q) s = s.finishResult (lengthB p q) p (s.readOp q) := rfl

/-- Settles O1: MOV is the format B instruction whose result is operand 1. -/
theorem movCopiesSource : Obligations.MovCopiesSource := by
  unfold Obligations.MovCopiesSource
  exact writesB_of_finishResult (o := .mov) (g := fun _ v => v) rfl (fun _ _ => rfl) exec_mov

end Sys2Proof.Machine
end

section
/-! PROOFS, family 42_arithmetic.md. What every instruction of format U that writes its operand does
(R63, R72, R78, R81), and integer arithmetic (R115 to R119): ADD, SUB, INC and DEC are completed
results, CMP keeps only the flags of its difference. -/

namespace Sys2Proof.Machine

open Sys2Proof Sys2Proof.Claims

/-! ## Format U with a written operand -/

theorem lengthU_bounds (p : Operand) : 3 ≤ lengthU p ∧ lengthU p ≤ 5 := by
  have := p.length_pos
  have := p.length_le
  simp only [lengthU]
  omega

/-- R63, R72: the two mode bytes of a writable operand of format U or US. -/
theorem modeU_mem_of_writable {p : Operand} (hp : p.writable = true) :
    modeU p ∈ ([0x00, 0x02] : List Byte) := by
  cases p with
  | reg r => simp [modeU, Operand.tag, tagBits]
  | imm v => simp [Operand.writable] at hp
  | mem m => simp [modeU, Operand.tag, tagBits]

theorem decode_encodeU_of_not_writable {o : UOp} {p : Operand} (rest : List Byte)
    (ho : o.writes = true) (hp : p.writable = false) :
    decode (encodeU Config.machine.opcode o p ++ rest) = .error .immDest := by
  refine decode_of_decodeBody_error (m := .u o) ?_
  simp [decodeBody, decodeU, ho, checkDest_of_not_writable hp, bind, Except.bind]

theorem encode_instrU (o : UOp) (p : Operand) :
    encode (instrU p o) = encodeU Config.machine.opcode o p := by cases o <;> rfl

theorem instrU_length (o : UOp) (p : Operand) : (instrU p o).length = lengthU p := by
  cases o <;> rfl

/-- A format U instruction that writes its operand, from its completion and its halt: the encoding
clauses are the format's own. -/
theorem writesU_of_completes {o : UOp} {f : State → Nat → Nat} {draws : Nat}
    (ho : o.writes = true)
    (hcompletes : ∀ p s, p.writable = true → s.mem.wf →
      Completes (instrU p o) p (f s (s.readOp p).toNat) draws s)
    (hhalts : ∀ p s, p.writable = false → exec (instrU p o) s = .next (haltOf s)) :
    WritesU (Config.machine.opcode (.u o)) (fun p => instrU p o) f draws := by
  intro p s
  obtain ⟨hlo, hhi⟩ := lengthU_bounds p
  simp only [encode_instrU, instrU_length]
  refine ⟨rfl, hlo, hhi, modeU_mem_of_writable, hcompletes p s,
    fun hp => ⟨fun rest => ?rejects, hhalts p s hp⟩⟩
  case rejects =>
    rw [encode_instrU]
    exact decode_encodeU_of_not_writable rest ho hp

/-- What a format U instruction does whose meaning ends in `finishResult` with the byte `g` of its
operand, where `f` is `g` on numbers. -/
theorem writesU_of_finishResult {o : UOp} {f : Nat → Nat} {g : Byte → Byte}
    (ho : o.writes = true) (hg : ∀ u, (g u).toNat = f u.toNat)
    (hexec : ∀ p s, exec (instrU p o) s = s.finishResult (lengthU p) p (g (s.readOp p))) :
    WritesU (Config.machine.opcode (.u o)) (fun p => instrU p o) (fun _ u => f u) 0 := by
  refine writesU_of_completes ho (fun p s hp hwf => ?completes) (fun p s hp => ?halts)
  case completes =>
    rw [← hg]
    exact completes_of_finishResult hp hwf (by rw [hexec, instrU_length]; rfl)
  case halts =>
    rw [hexec, State.finishResult_of_imm _ _ _ ((State.placeOf_eq_none s).mpr hp)]
    rfl

/-! ## R115 to R118 -/

theorem exec_add (p q : Operand) (s : State) :
    exec (.add p q) s = s.finishResult (lengthB p q) p (s.readOp p + s.readOp q) := rfl

theorem exec_sub (p q : Operand) (s : State) :
    exec (.sub p q) s = s.finishResult (lengthB p q) p (s.readOp p - s.readOp q) := rfl

theorem exec_inc (p : Operand) (s : State) :
    exec (.inc p) s = s.finishResult (lengthU p) p (s.readOp p + 1) := rfl

theorem exec_dec (p : Operand) (s : State) :
    exec (.dec p) s = s.finishResult (lengthU p) p (s.readOp p - 1) := rfl

/-- Settles O2: the sum of two bytes is the sum of their numbers modulo 256. -/
theorem addWrapsModulo256 : Obligations.AddWrapsModulo256 := by
  unfold Obligations.AddWrapsModulo256
  exact writesB_of_finishResult (o := .add) (g := (· + ·)) rfl BitVec.toNat_add exec_add

/-- Settles O3: the difference of two bytes is the wrapped difference of their numbers. -/
theorem subWrapsModulo256 : Obligations.SubWrapsModulo256 := by
  unfold Obligations.SubWrapsModulo256
  exact writesB_of_finishResult (o := .sub) (g := (· - ·)) rfl toNat_byte_sub exec_sub

/-- Settles O4: INC is the format U instruction that adds the byte 1. -/
theorem incWrapsModulo256 : Obligations.IncWrapsModulo256 := by
  unfold Obligations.IncWrapsModulo256
  exact writesU_of_finishResult (o := .inc) (g := (· + 1)) rfl (BitVec.toNat_add · 1) exec_inc

/-- Settles O5: DEC subtracts the byte 1, which adds 255 modulo 256. -/
theorem decWrapsModulo256 : Obligations.DecWrapsModulo256 := by
  unfold Obligations.DecWrapsModulo256
  exact writesU_of_finishResult (o := .dec) (g := (· - 1)) rfl (toNat_byte_sub · 1) exec_dec

/-! ## R119 -/

/-- R63: the nine mode bytes of format B. -/
theorem modeB_mem (p q : Operand) :
    modeB p q ∈ ([0x00, 0x04, 0x08, 0x02, 0x06, 0x0A, 0x01, 0x05, 0x09] : List Byte) := by
  cases p <;> cases q <;> simp [modeB, Operand.tag, tagBits]

theorem exec_cmp (p q : Operand) (s : State) :
    exec (.cmp p q) s =
      .next ((s.setZS (s.readOp p - s.readOp q)).advance (lengthB p q)) := rfl

/-- Neither the flags nor `pc` are a register or memory. -/
theorem nothingWritten_advance_setZS (s : State) (r : Byte) (len : Nat) :
    NothingWritten s ((s.setZS r).advance len) :=
  ⟨fun k => by simp, fun a => by simp⟩

/-- Settles O6: CMP leaves `setZS` of the difference, advanced, and the difference is 0 exactly for
equal operands. -/
theorem cmpSetsFlagsOnly : Obligations.CmpSetsFlagsOnly := by
  unfold Obligations.CmpSetsFlagsOnly
  intro p q s
  obtain ⟨hlo, hhi⟩ := lengthB_bounds p q
  refine ⟨rfl, hlo, hhi, modeB_mem p q, _, exec_cmp p q s, nothingWritten_advance_setZS s _ _,
    ?flags, ?equal, pcAfter_of_advance rfl, rfl, rfl, rfl, rfl⟩
  case flags =>
    rw [← toNat_byte_sub]
    exact flagsFrom_of_setZS rfl
  case equal =>
    rw [State.advance_flags, State.setZS_flags, beq_iff_eq]
    exact sub_eq_zero

end Sys2Proof.Machine
end

section
/-! PROOFS, family 43_logic_shift.md. What every instruction of format US does (R63, R68, R72, R78,
R81), and bitwise logic and shifts by a literal count (R125 to R130), all completed results. -/

namespace Sys2Proof.Machine

open Sys2Proof Sys2Proof.Claims

/-! ## Format US -/

theorem lengthUS_bounds (p : Operand) : 4 ≤ lengthUS p ∧ lengthUS p ≤ 6 := by
  have := p.length_pos
  have := p.length_le
  simp only [lengthUS]
  omega

/-- Both instructions of format US write operand 0, so neither decodes with an immediate there. -/
theorem decode_encodeUS_of_not_writable {o : USOp} {p : Operand} (count : Count)
    (rest : List Byte) (hp : p.writable = false) :
    decode (encodeUS Config.machine.opcode o p count ++ rest) = .error .immDest := by
  refine decode_of_decodeBody_error (m := .us o) ?_
  simp [decodeBody, decodeUS, checkDest_of_not_writable hp, bind, Except.bind]

theorem encode_instrUS (o : USOp) (p : Operand) (count : Count) :
    encode (instrUS p count o) = encodeUS Config.machine.opcode o p count := by cases o <;> rfl

theorem instrUS_length (o : USOp) (p : Operand) (count : Count) :
    (instrUS p count o).length = lengthUS p := by cases o <;> rfl

/-- What a format US instruction does whose meaning ends in `finishResult` with the byte `g` of its
operand and its count, where `f` is `g` on numbers. -/
theorem writesUS_of_finishResult {o : USOp} {f : Nat → Nat → Nat} {g : Byte → Nat → Byte}
    (hg : ∀ u n, (g u n).toNat = f u.toNat n)
    (hexec : ∀ p count s, exec (instrUS p count o) s =
      s.finishResult (lengthUS p) p (g (s.readOp p) count.val)) :
    WritesUS (Config.machine.opcode (.us o)) (fun p count => instrUS p count o) f := by
  intro p count s
  obtain ⟨hlo, hhi⟩ := lengthUS_bounds p
  simp only [encode_instrUS, instrUS_length]
  refine ⟨rfl, hlo, hhi, modeU_mem_of_writable, fun hp hwf => ?completes,
    fun hp => ⟨fun rest => ?rejects, ?halts⟩⟩
  case completes =>
    rw [← hg]
    exact completes_of_finishResult hp hwf (by rw [hexec, instrUS_length]; rfl)
  case rejects =>
    rw [encode_instrUS]
    exact decode_encodeUS_of_not_writable count rest hp
  case halts =>
    rw [hexec, State.finishResult_of_imm _ _ _ ((State.placeOf_eq_none s).mpr hp)]
    rfl

/-! ## R125 to R128 -/

theorem exec_and (p q : Operand) (s : State) :
    exec (.and p q) s = s.finishResult (lengthB p q) p (s.readOp p &&& s.readOp q) := rfl

theorem exec_or (p q : Operand) (s : State) :
    exec (.or p q) s = s.finishResult (lengthB p q) p (s.readOp p ||| s.readOp q) := rfl

theorem exec_xor (p q : Operand) (s : State) :
    exec (.xor p q) s = s.finishResult (lengthB p q) p (s.readOp p ^^^ s.readOp q) := rfl

theorem exec_not (p : Operand) (s : State) :
    exec (.not p) s = s.finishResult (lengthU p) p (~~~ s.readOp p) := rfl

/-- Settles O7: AND is the format B instruction whose result is the bitwise and. -/
theorem andIsBitwise : Obligations.AndIsBitwise := by
  unfold Obligations.AndIsBitwise
  exact writesB_of_finishResult (o := .and) (g := (· &&& ·)) rfl BitVec.toNat_and exec_and

/-- Settles O8: OR is the format B instruction whose result is the bitwise or. -/
theorem orIsBitwise : Obligations.OrIsBitwise := by
  unfold Obligations.OrIsBitwise
  exact writesB_of_finishResult (o := .or) (g := (· ||| ·)) rfl BitVec.toNat_or exec_or

/-- Settles O9: XOR is the format B instruction whose result is the bitwise exclusive or. -/
theorem xorIsBitwise : Obligations.XorIsBitwise := by
  unfold Obligations.XorIsBitwise
  exact writesB_of_finishResult (o := .xor) (g := (· ^^^ ·)) rfl BitVec.toNat_xor exec_xor

/-- Settles O10: the complement of a byte is its distance from 255. -/
theorem notInvertsEveryBit : Obligations.NotInvertsEveryBit := by
  unfold Obligations.NotInvertsEveryBit
  exact writesU_of_finishResult (o := .not) (g := (~~~ ·)) rfl (fun _ => BitVec.toNat_not) exec_not

/-! ## R129, R130 -/

theorem exec_shl (p : Operand) (count : Count) (s : State) :
    exec (.shl p count) s = s.finishResult (lengthUS p) p (s.readOp p <<< count.val) := rfl

theorem exec_shr (p : Operand) (count : Count) (s : State) :
    exec (.shr p count) s = s.finishResult (lengthUS p) p (s.readOp p >>> count.val) := rfl

/-- Settles O11: a left shift of a byte multiplies its number by a power of two, modulo 256. -/
theorem shlMultipliesModulo256 : Obligations.ShlMultipliesModulo256 := by
  unfold Obligations.ShlMultipliesModulo256
  exact writesUS_of_finishResult (o := .shl) (g := (· <<< ·)) toNat_byte_shiftLeft exec_shl

/-- Settles O12: a logical right shift of a byte divides its number by a power of two. -/
theorem shrDividesLogically : Obligations.ShrDividesLogically := by
  unfold Obligations.ShrDividesLogically
  exact writesUS_of_finishResult (o := .shr) (g := (· >>> ·)) toNat_byte_shiftRight exec_shr

end Sys2Proof.Machine
end

section
/-! PROOFS, family 44_random.md. RND (R135, R136): with a writable operand it completes the byte drawn
now after one draw is consumed, and an immediate operand halts without a draw. -/

namespace Sys2Proof.Machine

open Sys2Proof Sys2Proof.Claims

/-! ## R135, R136 -/

theorem exec_rnd_of_writable {p : Operand} (s : State) (hp : p.writable = true) :
    exec (.rnd p) s = s.consumeDraw.finishResult (lengthU p) p s.drawn := by
  obtain ⟨d, hd, -⟩ := s.placeOf_of_writable hp
  simp [exec, execRnd, hd]

/-- R81 `IMM_DEST`: the halt comes before the draw. -/
theorem exec_rnd_of_not_writable {p : Operand} (s : State) (hp : p.writable = false) :
    exec (.rnd p) s = .next (haltOf s) := by
  simp only [exec, execRnd, s.placeOf_eq_none.mpr hp]
  rfl

/-- Settles O13: RND is the format U instruction that completes the drawn byte, whatever its operand
held, from the state with one more draw consumed. -/
theorem rndReceivesNextEntropyByte : Obligations.RndReceivesNextEntropyByte := by
  unfold Obligations.RndReceivesNextEntropyByte
  exact writesU_of_completes (o := .rnd) rfl
    (fun _ s hp hwf => completes_of_finishResult (r := s.drawn) hp hwf (exec_rnd_of_writable s hp))
    (fun _ s hp => exec_rnd_of_not_writable s hp)

end Sys2Proof.Machine
end

section
/-! PROOFS, family 45_stack.md. PUSH and POP (R140, R141): the stack byte stored or received and
`sp` moved, with the flags left alone. -/

namespace Sys2Proof.Machine

open Sys2Proof Sys2Proof.Claims

/-! ## R140 -/

/-- R25: the pre-decrement of `sp` as a number. -/
theorem toNat_addr_sub_one (a : Addr) : (a - 1).toNat = (a.toNat + 65535) % 65536 := by
  bv_omega

/-- R63, R72: the three mode bytes of a read operand of format U. -/
theorem modeU_mem (p : Operand) : modeU p ∈ ([0x00, 0x01, 0x02] : List Byte) := by
  cases p <;> simp [modeU, Operand.tag, tagBits]

theorem exec_push (p : Operand) (s : State) :
    exec (.push p) s = .next ((s.pushByte (s.readOp p)).advance (lengthU p)) := rfl

/-- Settles O14: PUSH leaves the pushed state, advanced, and only the slot at `sp - 1` reads
otherwise there. -/
theorem pushPreDecrementsThenWrites : Obligations.PushPreDecrementsThenWrites := by
  unfold Obligations.PushPreDecrementsThenWrites
  intro p s
  obtain ⟨hlo, hhi⟩ := lengthU_bounds p
  refine ⟨rfl, hlo, hhi, modeU_mem p, fun hwf => ⟨_, exec_push p s, rfl, ?sp, ?slot,
    fun a ha => ?other, fun k => ?reg, rfl, pcAfter_of_advance rfl, rfl, rfl, rfl⟩⟩
  case sp => exact toNat_addr_sub_one s.sp
  case slot =>
    rw [State.readMem_advance]
    exact State.readMem_pushByte_same hwf _
  case other =>
    rw [State.readMem_advance]
    exact s.readMem_pushByte_other _ ha
  case reg => simp

/-! ## R141 -/

theorem exec_pop_of_place {p : Operand} {s : State} {d : Place} (hd : s.placeOf p = some d) :
    exec (.pop p) s = .next ((s.dropByte.writePlace d s.topByte).advance (lengthU p)) := by
  simp only [exec, execPop, hd]

/-- R81 `IMM_DEST`: the halt comes before the pop. -/
theorem exec_pop_of_not_writable {p : Operand} (s : State) (hp : p.writable = false) :
    exec (.pop p) s = .next (haltOf s) := by
  simp only [exec, execPop, s.placeOf_eq_none.mpr hp]
  rfl

@[simp] theorem State.placeByte_dropByte (s : State) (d : Place) :
    s.dropByte.placeByte d = s.placeByte d := by cases d <;> rfl

/-- The place of a pop holds the byte at the old `sp`, every other place what it held. -/
theorem resultAt_of_pop {p : Operand} {s : State} {d : Place} (hd : s.placeOf p = some d)
    (hwf : s.mem.wf) (len : Nat) :
    ResultAt s ((s.dropByte.writePlace d s.topByte).advance len) p (s.readMem s.sp).toNat := by
  refine resultAt_of_placeByte hd ?same fun e he => ?other
  case same =>
    rw [State.placeByte_advance, State.placeByte_writePlace_same (s := s.dropByte) hwf]
    rfl
  case other =>
    rw [State.placeByte_advance, State.placeByte_writePlace_other _ _ he, State.placeByte_dropByte]

/-- Settles O15: with a writable operand POP writes the top byte to the place named before the pop,
and an immediate operand neither decodes nor pops. -/
theorem popReadsThenPostIncrements : Obligations.PopReadsThenPostIncrements := by
  unfold Obligations.PopReadsThenPostIncrements
  intro p s
  obtain ⟨hlo, hhi⟩ := lengthU_bounds p
  refine ⟨rfl, hlo, hhi, modeU_mem_of_writable, fun hp hwf => ?pops,
    fun hp => ⟨fun rest => ?rejects, exec_pop_of_not_writable s hp⟩⟩
  case pops =>
    obtain ⟨d, hd, -⟩ := s.placeOf_of_writable hp
    refine ⟨_, exec_pop_of_place hd, resultAt_of_pop hd hwf _, ?sp, ?flags,
      pcAfter_of_advance ?pc, ?kept⟩
    case sp => simp [BitVec.toNat_add]
    case flags => simp
    case pc => simp [Instr.length]
    case kept => simp
  case rejects => exact decode_encodeU_of_not_writable (o := .pop) rest rfl hp

end Sys2Proof.Machine
end

section
/-! PROOFS, family 46_control.md. The encoding of format J (R44, R69), and the jumps (R145 to R147):
each leaves the state with `pc` at its target or advanced past its three bytes. -/

namespace Sys2Proof.Machine

open Sys2Proof Sys2Proof.Claims

/-! ## Format J -/

/-- R44: the address bytes as numbers, the remainder by 256 and then the quotient. -/
theorem addrBytes_eq_ofNat (a : Addr) :
    addrBytes a = [BitVec.ofNat 8 (a.toNat % 256), BitVec.ofNat 8 (a.toNat / 256)] := by
  have hlow : a.extractLsb' 0 8 = BitVec.ofNat 8 (a.toNat % 256) := by
    apply BitVec.eq_of_toNat_eq
    simp
  have hhigh : a.extractLsb' 8 8 = BitVec.ofNat 8 (a.toNat / 256) := by
    apply BitVec.eq_of_toNat_eq
    simp [Nat.shiftRight_eq_div_pow]
  rw [addrBytes, hlow, hhigh]

theorem encode_instrJ (o : JOp) (target : Addr) :
    encode (instrJ target o) = encodeJ Config.machine.opcode o target := by cases o <;> rfl

theorem instrJ_length (o : JOp) (target : Addr) : (instrJ target o).length = 3 := by
  cases o <;> rfl

theorem encodesJ_instrJ (o : JOp) (target : Addr) :
    EncodesJ (Config.machine.opcode (.j o)) (instrJ target o) target := by
  refine ⟨?_, instrJ_length o target⟩
  rw [encode_instrJ, encodeJ, addrBytes_eq_ofNat]

/-! ## R145 to R147 -/

theorem exec_jmp (target : Addr) (s : State) : exec (.jmp target) s = .next (s.jumpTo target) := rfl

theorem exec_jz (target : Addr) (s : State) :
    exec (.jz target) s = .next (if s.flags.zero then s.jumpTo target else s.advance 3) := rfl

theorem exec_jnz (target : Addr) (s : State) :
    exec (.jnz target) s = .next (if s.flags.zero then s.advance 3 else s.jumpTo target) := rfl

/-- Settles O16: JMP has format J, and `jumpTo` updates `pc` alone. -/
theorem jmpSetsPcToTarget : Obligations.JmpSetsPcToTarget := by
  unfold Obligations.JmpSetsPcToTarget
  exact fun target s => ⟨encodesJ_instrJ .jmp target, exec_jmp target s⟩

/-- Settles O17: `Z` chooses between the jump and the fall-through, which both update `pc` alone. -/
theorem jzJumpsIffZero : Obligations.JzJumpsIffZero := by
  unfold Obligations.JzJumpsIffZero
  refine fun target s => ⟨encodesJ_instrJ .jz target, fun hz => ?jumps, fun hz => ?fallsThrough⟩
  case jumps | fallsThrough =>
    rw [exec_jz, hz]
    rfl

/-- Settles O18: JNZ is JZ with the two outcomes exchanged. -/
theorem jnzJumpsIffNotZero : Obligations.JnzJumpsIffNotZero := by
  unfold Obligations.JnzJumpsIffNotZero
  refine fun target s => ⟨encodesJ_instrJ .jnz target, fun hz => ?jumps, fun hz => ?fallsThrough⟩
  case jumps | fallsThrough =>
    rw [exec_jnz, hz]
    rfl

end Sys2Proof.Machine
end

section
/-! PROOFS, family 47_halt.md. HLT (R155) and the halt state it leaves, in which the Machine stays. -/

namespace Sys2Proof.Machine

open Sys2Proof Sys2Proof.Claims

/-- D2, D5: HLT is its opcode byte alone. -/
theorem encode_hlt : encode .hlt = [0x00] := rfl

@[simp] theorem haltOf_running (s : State) : (haltOf s).running = false := rfl

/-- R90: the continue signal is the running bit of the state a step leaves. -/
@[simp] theorem continueSignal_next (t : State) : continueSignal (.next t) = t.running := rfl

/-- Settles O21: HLT leaves the halt state, whose cleared running bit is the continue signal and stops
every further step. -/
theorem hltClearsRunningOnly : Obligations.HltClearsRunningOnly := by
  unfold Obligations.HltClearsRunningOnly
  refine fun s =>
    ⟨encode_hlt, exec_hlt_eq_haltOf s, step_of_halted (haltOf_running s), ?signal⟩
  case signal => rw [exec_hlt_eq_haltOf, continueSignal_next, haltOf_running]

end Sys2Proof.Machine
end

section
/-! PROOFS, family 48_assembler.md. Pass 1 read line by line (R176, R177, R179): what one line adds to
the items and to the table, and the invariant every line keeps. Then Pass 2 (R178): how its
instructions are linked to the table, in the lengths of Pass 1. -/

namespace Sys2Proof.Machine

open Sys2Proof Sys2Proof.Claims

/-- What a bind that succeeds has computed. -/
theorem exists_ok_of_bind_eq_ok {ε α β : Type} {x : Except ε α} {f : α → Except ε β} {b : β}
    (h : x >>= f = .ok b) : ∃ a, x = .ok a ∧ f a = .ok b := by
  cases x with
  | error e => cases h
  | ok a => exact ⟨a, rfl, h⟩

/-! ## Lengths do not depend on the labels' addresses -/

theorem encodeWith_length (t : OpcodeMap) (i : Instr) : (encodeWith t i).length = i.length := by
  cases i with
  | hlt | ret | jmp | jz | jnz | call => rfl
  | inc p | dec p | not p | rnd p | push p | pop p => exact encodeU_length t _ p
  | shl p count | shr p count => exact encodeUS_length t _ p count
  | mov p q | add p q | sub p q | cmp p q | and p q | or p q | xor p q =>
    exact encodeB_length t _ p q

/-- R174: a label and a literal both take one value byte. -/
theorem resolveOperand_length (f g : Text → Nat) (p : AsmOperand) :
    (resolveOperand f p).length = (resolveOperand g p).length := by
  cases p <;> rfl

/-- R177: Pass 1 may size an instruction before its labels are known. -/
theorem resolveInstr_length (f : Text → Nat) (i : AsmInstr) :
    (resolveInstr f i).length = asmLength i := by
  have hop := resolveOperand_length f (fun _ => 0)
  cases i with
  | z o => rfl
  | j o target => simp only [asmLength, resolveInstr, instrJ_length]
  | u o p => simp only [asmLength, resolveInstr, instrU_length, lengthU, hop]
  | us o p count => simp only [asmLength, resolveInstr, instrUS_length, lengthUS, hop]
  | b o p q => simp only [asmLength, resolveInstr, instrB_length, lengthB, hop]

@[simp] theorem itemsSize_nil : itemsSize [] = 0 := rfl

@[simp] theorem itemsSize_singleton (item : AsmItem) : itemsSize [item] = asmLength item.instr := by
  simp [itemsSize]

@[simp] theorem itemsSize_append (xs ys : List AsmItem) :
    itemsSize (xs ++ ys) = itemsSize xs + itemsSize ys := by
  simp [itemsSize]

/-! ## The numbers of the source lines -/

theorem numberLines_map_fst (n : Nat) (ls : List Text) :
    (numberLines n ls).map Prod.fst = List.range' n ls.length := by
  induction ls generalizing n with
  | nil => rfl
  | cons l ls ih => simp [numberLines, ih, List.range'_succ]

/-- R163: the line numbers rise, comments and blank lines left out. -/
theorem sourceLines_pairwise_lt (source : Text) :
    (sourceLines source).Pairwise (fun l m => l.1 < m.1) := by
  have hnumbers (ls : List Text) : (numberLines 1 ls).Pairwise (fun l m => l.1 < m.1) := by
    rw [← List.pairwise_map (f := Prod.fst) (R := (· < ·)), numberLines_map_fst]
    exact List.pairwise_lt_range'
  refine List.Pairwise.filter _ (List.pairwise_map.mpr ?_)
  exact hnumbers _

/-! ## What one line adds -/

/-- The entry a line makes in the table of Pass 1 at `pc`, if it defines a label (R176, R179). -/
def labelEntry (pc : Nat) (line : Text) : Option (Text × Nat) :=
  (labelDefinition line).map (fun d => (d.1, pc))

/-- The parse of the instruction a line holds. -/
def parseLine (c : Config) (l : Nat × Text) : Except (Text × AsmErrorKind) AsmInstr :=
  parseInstr c (tokens (instrPart l.2)).1 (tokens (instrPart l.2)).2

/-- The items a line adds at `pc`: none without an instruction, else the one parsed. -/
inductive LineItems (c : Config) (l : Nat × Text) (pc : Nat) : List AsmItem → Prop
  | blank (h : instrPart l.2 = []) : LineItems c l pc []
  | instr {i : AsmInstr} (h : instrPart l.2 ≠ []) (hparse : parseLine c l = .ok i) :
    LineItems c l pc [{ line := l.1, instr := i, addr := pc }]

/-- Everything a line of Pass 1 that succeeds does to the state, `lastLine` aside. -/
structure LineRead (c : Config) (l : Nat × Text) (st st' : PassOne) (new : List AsmItem) : Prop where
  added : LineItems c l st.pc new
  pc : st'.pc = st.pc + itemsSize new
  items : st'.items = st.items ++ new
  symtab : st'.symtab = st.symtab ++ (labelEntry st.pc l.2).toList
  fresh : ∀ e ∈ labelEntry st.pc l.2, e.1 ∉ st.symtab.map Prod.fst

theorem lookupLabel_isSome_iff {tab : SymTab} {name : Text} :
    (lookupLabel tab name).isSome ↔ name ∈ tab.map Prod.fst := by
  simp [lookupLabel]

theorem mem_of_lookupLabel {tab : SymTab} {name : Text} {a : Nat}
    (h : lookupLabel tab name = some a) : (name, a) ∈ tab := by
  obtain ⟨e, hfind, rfl⟩ := Option.map_eq_some_iff.mp h
  have hname : e.1 = name := by simpa using List.find?_some hfind
  exact hname ▸ List.mem_of_find?_eq_some hfind

theorem defineLabel_ok {ln : Nat} {line rest : Text} {st st' : PassOne}
    (h : defineLabel ln line st = .ok (rest, st')) :
    rest = instrPart line ∧
      st' = { st with symtab := st.symtab ++ (labelEntry st.pc line).toList } ∧
      ∀ e ∈ labelEntry st.pc line, e.1 ∉ st.symtab.map Prod.fst := by
  unfold defineLabel at h
  unfold instrPart labelEntry
  cases hdef : labelDefinition line with
  | none =>
    simp only [hdef] at h
    cases h
    simp
  | some d =>
    simp only [hdef] at h
    split at h
    · cases h
    · next hnew =>
      cases h
      rw [lookupLabel_isSome_iff] at hnew
      exact ⟨rfl, rfl, by simpa using hnew⟩

theorem placeLine_ok {c : Config} {ln : Nat} {text : Text} {st st' : PassOne}
    (h : placeLine c ln text st = .ok st') :
    ∃ i, parseInstr c (tokens text).1 (tokens text).2 = .ok i ∧
      st' = { st with
        pc := st.pc + asmLength i
        items := st.items ++ [{ line := ln, instr := i, addr := st.pc }] } := by
  unfold placeLine at h
  split at h
  · cases h
  · next i hparse =>
    cases h
    exact ⟨i, hparse, rfl⟩

theorem passOneLine_ok {c : Config} {l : Nat × Text} {st st' : PassOne}
    (h : passOneLine c l.1 l.2 st = .ok st') : ∃ new, LineRead c l st st' new := by
  obtain ⟨⟨rest, labelled⟩, hlabel, h⟩ := exists_ok_of_bind_eq_ok h
  obtain ⟨rfl, rfl, hfresh⟩ := defineLabel_ok hlabel
  by_cases hblank : instrPart l.2 = []
  · simp only [hblank, if_true] at h
    cases h
    exact ⟨[], .blank hblank, rfl, by simp, rfl, hfresh⟩
  · simp only [hblank, if_false] at h
    obtain ⟨i, hparse, rfl⟩ := placeLine_ok h
    exact ⟨_, .instr hblank hparse, by simp, rfl, rfl, hfresh⟩

/-! ## The invariant of Pass 1 -/

/-- What an item records of its line's text. -/
def itemParse (item : AsmItem) : Nat × Except (Text × AsmErrorKind) AsmInstr :=
  (item.line, .ok item.instr)

/-- The lines that hold an instruction, each with its parse. -/
def lineParses (c : Config) (ls : List (Nat × Text)) :
    List (Nat × Except (Text × AsmErrorKind) AsmInstr) :=
  (ls.filter (fun l => decide (instrPart l.2 ≠ []))).map (fun l => (l.1, parseLine c l))

/-- Each item stands at `origin` plus the lengths of the items before it. -/
def AddressesExact (origin : Nat) (items : List AsmItem) : Prop :=
  ∀ k, (h : k < items.length) → items[k].addr = origin + itemsSize (items.take k)

/-- The label definitions of the lines in order, each at `origin` plus the lengths of the items on
the lines before its own. -/
def labelTable (origin : Nat) (items : List AsmItem) (ls : List (Nat × Text)) : SymTab :=
  ls.filterMap (fun l => labelEntry (origin + itemsSize (itemsBefore items l.1)) l.2)

/-- What holds of the state of Pass 1 once the lines `done` are read. -/
structure PassOneInv (c : Config) (origin : Nat) (done : List (Nat × Text)) (st : PassOne) :
    Prop where
  pc : st.pc = origin + itemsSize st.items
  parses : st.items.map itemParse = lineParses c done
  addresses : AddressesExact origin st.items
  table : st.symtab = labelTable origin st.items done
  names : (st.symtab.map Prod.fst).Nodup

theorem passOneInv_start (c : Config) (origin : Nat) :
    PassOneInv c origin [] (passOneStart origin) :=
  ⟨rfl, rfl, fun _ h => absurd h (Nat.not_lt_zero _), rfl, List.nodup_nil⟩

theorem lineParses_append (c : Config) (ls ms : List (Nat × Text)) :
    lineParses c (ls ++ ms) = lineParses c ls ++ lineParses c ms := by
  simp [lineParses]

theorem LineItems.parses {c : Config} {l : Nat × Text} {pc : Nat} {new : List AsmItem}
    (h : LineItems c l pc new) : new.map itemParse = lineParses c [l] := by
  cases h with
  | blank h => simp [lineParses, h]
  | instr h hparse => simp [lineParses, itemParse, h, hparse]

theorem LineItems.line_eq {c : Config} {l : Nat × Text} {pc : Nat} {new : List AsmItem}
    (h : LineItems c l pc new) : ∀ item ∈ new, item.line = l.1 := by
  cases h with
  | blank => simp
  | instr => simp

/-- An item after the others has an exact address if it stands where they end. -/
theorem AddressesExact.concat {origin : Nat} {items : List AsmItem} {item : AsmItem}
    (h : AddressesExact origin items) (hitem : item.addr = origin + itemsSize items) :
    AddressesExact origin (items ++ [item]) := by
  intro k hk
  rcases Nat.lt_or_ge k items.length with hlt | hge
  · rw [List.getElem_append_left hlt, List.take_append_of_le_length hlt.le]
    exact h k hlt
  · obtain rfl : k = items.length := by simp at hk; omega
    simpa using hitem

theorem LineItems.addressesExact {c : Config} {l : Nat × Text} {origin pc : Nat}
    {items new : List AsmItem} (h : LineItems c l pc new) (hpc : pc = origin + itemsSize items)
    (hitems : AddressesExact origin items) : AddressesExact origin (items ++ new) := by
  cases h with
  | blank => simpa using hitems
  | instr => exact hitems.concat hpc

/-- An item of Pass 1 stands on one of the lines read. -/
theorem PassOneInv.exists_line {c : Config} {origin : Nat} {done : List (Nat × Text)} {st : PassOne}
    (h : PassOneInv c origin done st) {item : AsmItem} (hitem : item ∈ st.items) :
    ∃ l ∈ done, l.1 = item.line := by
  have hmem : itemParse item ∈ lineParses c done := h.parses ▸ List.mem_map_of_mem hitem
  obtain ⟨l, hl, heq⟩ := List.mem_map.mp hmem
  exact ⟨l, List.mem_of_mem_filter hl, congrArg Prod.fst heq⟩

theorem itemsBefore_append_of_le {items new : List AsmItem} {ln : Nat}
    (h : ∀ item ∈ new, ln ≤ item.line) : itemsBefore (items ++ new) ln = itemsBefore items ln := by
  have hnew : itemsBefore new ln = [] := by simpa [itemsBefore] using h
  simpa [itemsBefore] using hnew

theorem itemsBefore_eq_self {items : List AsmItem} {ln : Nat}
    (h : ∀ item ∈ items, item.line < ln) : itemsBefore items ln = items := by
  simpa [itemsBefore] using h

/-- The table grows at its end: later items do not move the labels of earlier lines, and the new
line's label stands at the end of all the items before it. -/
theorem labelTable_append {origin : Nat} {items new : List AsmItem} {done : List (Nat × Text)}
    {l : Nat × Text} (hdone : ∀ m ∈ done, m.1 < l.1) (hitems : ∀ item ∈ items, item.line < l.1)
    (hnew : ∀ item ∈ new, item.line = l.1) :
    labelTable origin (items ++ new) (done ++ [l]) =
      labelTable origin items done ++ (labelEntry (origin + itemsSize items) l.2).toList := by
  have hbefore {m : Nat × Text} (hm : m.1 ≤ l.1) :
      itemsBefore (items ++ new) m.1 = itemsBefore items m.1 :=
    itemsBefore_append_of_le fun item hitem => hnew item hitem ▸ hm
  have hold : labelTable origin (items ++ new) done = labelTable origin items done :=
    List.filterMap_congr fun m hm => by rw [hbefore (hdone m hm).le]
  have hlast : labelTable origin (items ++ new) [l] =
      (labelEntry (origin + itemsSize items) l.2).toList := by
    rw [labelTable, List.filterMap_cons, hbefore le_rfl, itemsBefore_eq_self hitems]
    cases labelEntry (origin + itemsSize items) l.2 <;> rfl
  rw [← hold, ← hlast]
  exact List.filterMap_append

theorem nodup_names_append {tab : SymTab} {entry : Option (Text × Nat)}
    (htab : (tab.map Prod.fst).Nodup) (hfresh : ∀ e ∈ entry, e.1 ∉ tab.map Prod.fst) :
    ((tab ++ entry.toList).map Prod.fst).Nodup := by
  cases entry with
  | none => simpa using htab
  | some e =>
    rw [Option.toList_some, List.map_append, List.map_singleton]
    exact List.concat_eq_append ▸ htab.concat (hfresh e rfl)

theorem PassOneInv.keep_line {c : Config} {origin : Nat} {done : List (Nat × Text)}
    {l : Nat × Text} {st st' : PassOne} {new : List AsmItem} (h : PassOneInv c origin done st)
    (hdone : ∀ m ∈ done, m.1 < l.1) (hread : LineRead c l st st' new) :
    PassOneInv c origin (done ++ [l]) st' := by
  obtain ⟨hadded, hpc, hitems, hsymtab, hfresh⟩ := hread
  have hlines : ∀ item ∈ st.items, item.line < l.1 := fun item hitem => by
    obtain ⟨m, hm, hline⟩ := h.exists_line hitem
    exact hline ▸ hdone m hm
  constructor
  case pc => rw [hpc, hitems, itemsSize_append, h.pc, Nat.add_assoc]
  case parses => rw [hitems, List.map_append, h.parses, hadded.parses, lineParses_append]
  case addresses => exact hitems ▸ hadded.addressesExact h.pc h.addresses
  case table =>
    rw [hsymtab, hitems, labelTable_append hdone hlines hadded.line_eq, ← h.table, ← h.pc]
  case names => exact hsymtab ▸ nodup_names_append h.names hfresh

theorem PassOneInv.keep_lines {c : Config} {origin : Nat} {ls done : List (Nat × Text)}
    {st st' : PassOne} (h : PassOneInv c origin done st)
    (hsorted : (done ++ ls).Pairwise (fun l m => l.1 < m.1))
    (hrun : passOneLines c ls st = .ok st') : PassOneInv c origin (done ++ ls) st' := by
  induction ls generalizing done st with
  | nil =>
    cases hrun
    simpa using h
  | cons l ls ih =>
    obtain ⟨mid, hline, hrest⟩ := exists_ok_of_bind_eq_ok hrun
    obtain ⟨new, hread⟩ := passOneLine_ok hline
    have hdone : ∀ m ∈ done, m.1 < l.1 := fun m hm =>
      (List.pairwise_append.mp hsorted).2.2 m hm l List.mem_cons_self
    rw [List.append_cons] at hsorted ⊢
    exact ih (h.keep_line hdone hread) hsorted hrest

theorem passOne_ok {c : Config} {origin : Nat} {source : Text} {st : PassOne}
    (h : passOne c origin source = .ok st) :
    PassOneInv c origin (sourceLines source) st ∧ st.pc ≤ memSize := by
  obtain ⟨last, hlines, hcheck⟩ := exists_ok_of_bind_eq_ok h
  split at hcheck
  · cases hcheck
  · next hfits =>
    cases hcheck
    exact ⟨(passOneInv_start c origin).keep_lines (sourceLines_pairwise_lt source) hlines,
      Nat.le_of_not_lt hfits⟩

/-! ## Pass 2 -/

/-- The address Pass 2 gives a label (R178). -/
def labelAddress (tab : SymTab) (name : Text) : Nat := (lookupLabel tab name).getD 0

/-- The instruction Pass 2 makes of an item. -/
def linkItem (tab : SymTab) (item : AsmItem) : Instr := resolveInstr (labelAddress tab) item.instr

theorem mem_labelAddress {tab : SymTab} {name : Text} (h : (lookupLabel tab name).isSome) :
    (name, labelAddress tab name) ∈ tab := by
  obtain ⟨a, ha⟩ := Option.isSome_iff_exists.mp h
  rw [labelAddress, ha]
  exact mem_of_lookupLabel ha

/-- R172, R178: a target is its number or its label's address modulo 65536. -/
theorem targetLinked_refValue {tab : SymTab} {target : Ref}
    (h : ∀ name ∈ refLabels target, (lookupLabel tab name).isSome) :
    TargetLinked tab (BitVec.ofInt 16 (refValue (labelAddress tab) target)) target := by
  cases target with
  | value v =>
    simp only [TargetLinked, refValue, BitVec.toNat_ofInt]
    omega
  | label name =>
    refine ⟨labelAddress tab name, mem_labelAddress (h name List.mem_cons_self), ?_⟩
    simp only [refValue, BitVec.toNat_ofInt]
    omega

/-- R169, R174, R178: a value byte is its number or its label's address modulo 256. -/
theorem operandLinked_resolveOperand {tab : SymTab} {p : AsmOperand}
    (h : ∀ name ∈ operandLabels p, (lookupLabel tab name).isSome) :
    OperandLinked tab (resolveOperand (labelAddress tab) p) p := by
  cases p with
  | reg r => rfl
  | mem m => rfl
  | ref v =>
    cases v with
    | value v =>
      refine ⟨_, rfl, ?_⟩
      simp only [refValue, BitVec.toNat_ofInt]
      omega
    | label name =>
      refine ⟨labelAddress tab name, _, mem_labelAddress (h name List.mem_cons_self), rfl, ?_⟩
      simp only [refValue, BitVec.toNat_ofInt]
      omega

theorem instrLinked_resolveInstr {tab : SymTab} {i : AsmInstr}
    (h : ∀ name ∈ instrLabels i, (lookupLabel tab name).isSome) :
    InstrLinked tab (resolveInstr (labelAddress tab) i) i := by
  cases i with
  | z o => rfl
  | j o target => exact ⟨_, targetLinked_refValue h, rfl⟩
  | u o p => exact ⟨_, operandLinked_resolveOperand h, rfl⟩
  | us o p count => exact ⟨_, operandLinked_resolveOperand h, rfl⟩
  | b o p q =>
    obtain ⟨hp, hq⟩ := List.forall_mem_append.mp h
    exact ⟨_, _, operandLinked_resolveOperand hp, operandLinked_resolveOperand hq, rfl⟩

theorem emitItem_ok {c : Config} {tab : SymTab} {item : AsmItem} {bytes : List Byte}
    (h : emitItem c tab item = .ok bytes) :
    bytes = encodeWith c.opcode (linkItem tab item) ∧
      ∀ name ∈ instrLabels item.instr, (lookupLabel tab name).isSome := by
  unfold emitItem at h
  split at h
  · cases h
  · next hfound =>
    cases h
    exact ⟨rfl, by simpa [Option.isSome_iff_ne_none] using hfound⟩

theorem passTwo_ok {c : Config} {tab : SymTab} {items : List AsmItem} {bytes : List Byte}
    (h : passTwo c tab items = .ok bytes) :
    bytes = ((items.map (linkItem tab)).map (encodeWith c.opcode)).flatten ∧
      ∀ item ∈ items, InstrLinked tab (linkItem tab item) item.instr := by
  induction items generalizing bytes with
  | nil =>
    cases h
    simp
  | cons item items ih =>
    obtain ⟨first, hfirst, h⟩ := exists_ok_of_bind_eq_ok h
    obtain ⟨rest, hrest, h⟩ := exists_ok_of_bind_eq_ok h
    cases h
    obtain ⟨rfl, hlabels⟩ := emitItem_ok hfirst
    obtain ⟨rfl, hlinked⟩ := ih hrest
    exact ⟨rfl, List.forall_mem_cons.mpr ⟨instrLinked_resolveInstr hlabels, hlinked⟩⟩

theorem linkItem_length (t : OpcodeMap) (tab : SymTab) (item : AsmItem) :
    asmLength item.instr = (encodeWith t (linkItem tab item)).length := by
  rw [encodeWith_length, linkItem, resolveInstr_length]

/-- A source that assembles has passed both passes, and its load address is `ORIGIN` (R160). -/
theorem assemble_ok {c : Config} {origin : Nat} {source : Text} {p : Program}
    (h : assemble c origin source = .ok p) :
    ∃ st, passOne c origin source = .ok st ∧ passTwo c st.symtab st.items = .ok p.bytes ∧
      p.loadAddress = origin := by
  obtain ⟨st, hone, h⟩ := exists_ok_of_bind_eq_ok h
  obtain ⟨bytes, htwo, h⟩ := exists_ok_of_bind_eq_ok h
  cases h
  exact ⟨st, hone, htwo, rfl⟩

/-! ## R176 to R180 -/

/-- Settles O57: the invariant of Pass 1 holds once all source lines are read, and Pass 2 links every
item through the table, in the length it was given. -/
theorem passOneAddressesAreExact : Obligations.PassOneAddressesAreExact := by
  unfold Obligations.PassOneAddressesAreExact
  intro c origin source st hone
  obtain ⟨⟨hpc, hparses, haddresses, htable, hnames⟩, hfits⟩ := passOne_ok hone
  refine ⟨hpc, hfits, hparses, haddresses, htable, hnames, fun p hp => ?emitted⟩
  case emitted =>
    obtain ⟨st', hone', htwo, -⟩ := assemble_ok hp
    obtain rfl : st' = st := by simpa [hone'] using hone
    obtain ⟨hbytes, hlinked⟩ := passTwo_ok htwo
    refine ⟨_, hbytes, List.forall₂_map_right_iff.mpr (List.forall₂_same.mpr fun item hitem => ?_)⟩
    exact ⟨hlinked item hitem, linkItem_length c.opcode _ item⟩

end Sys2Proof.Machine
end

section
/-! PROOFS, family 30_encoding.md. How each reading step of the decoder consumes exactly the bytes of
what it reads (R79, R85), what it can have read (R80, R86), and from both that decode and encode are
inverse to each other (R87). -/

namespace Sys2Proof.Machine

open Sys2Proof Sys2Proof.Claims

/-! ## Readers and the bytes they consume -/

/-- A reading step of the decoder: what it reads from the bytes left, and the bytes after it. -/
abbrev Reader (α : Type) : Type := List Byte → Except HaltCause (α × List Byte)

@[simp] theorem except_ok_bind {ε α β : Type} (a : α) (f : α → Except ε β) :
    (Except.ok a >>= f) = f a := rfl

@[simp] theorem except_error_bind {ε α β : Type} (e : ε) (f : α → Except ε β) :
    (Except.error e >>= f) = .error e := rfl

/-- The reader reads `a` from exactly the bytes `bs`: whatever follows them is left over, and where
they are cut short it runs past the end. -/
structure Reads {α : Type} (f : Reader α) (bs : List Byte) (a : α) : Prop where
  whole : ∀ rest, f (bs ++ rest) = .ok (a, rest)
  cut : ∀ n < bs.length, f (bs.take n) = .error .fetchPastEnd

section
variable {α β : Type} {f : Reader α} {h : Reader β} {u v : List Byte} {a : α} {b : β}
  {k : α × List Byte → Except HaltCause (β × List Byte)}

/-- A reading step followed by the rest of a reader consumes the bytes of both. -/
theorem Reads.append (hf : Reads f u a) (hk : Reads (fun bs => k (a, bs)) v b)
    (hh : ∀ bs, h bs = f bs >>= k) : Reads h (u ++ v) b := by
  constructor
  case whole =>
    intro rest
    rw [hh, List.append_assoc, hf.whole, except_ok_bind]
    exact hk.whole rest
  case cut =>
    intro n hn
    rw [hh]
    rcases Nat.lt_or_ge n u.length with hlt | hge
    · rw [List.take_append_of_le_length hlt.le, hf.cut n hlt, except_error_bind]
    · rw [List.take_append, List.take_of_length_le hge, hf.whole, except_ok_bind]
      exact hk.cut _ (by rw [List.length_append] at hn; omega)

/-- A step that consumes nothing may follow. -/
theorem Reads.map (hf : Reads f u a) (hk : ∀ bs, k (a, bs) = .ok (b, bs))
    (hh : ∀ bs, h bs = f bs >>= k) : Reads h u b := by
  have hdone : Reads (fun bs => k (a, bs)) [] b := ⟨hk, by simp⟩
  simpa using hf.append hdone hh

end

/-! ## The bytes of each reading step -/

theorem reads_fetchByte (b : Byte) : Reads fetchByte [b] b :=
  ⟨fun _ => rfl, fun n hn => by
    obtain rfl : n = 0 := Nat.lt_one_iff.mp hn
    rfl⟩

theorem reads_readReg (r : Reg) : Reads readReg [regByte r] r :=
  (reads_fetchByte _).map (fun _ => by simp) (fun _ => rfl)

theorem reads_readAddr (a : Addr) : Reads readAddr (addrBytes a) a :=
  (reads_fetchByte _).append
    ((reads_fetchByte _).map (fun _ => by simp; rfl) (fun _ => rfl)) (fun _ => rfl)

theorem reads_readRegOffset (r : Reg) (off : Byte) :
    Reads readRegOffset [regByte r, off] (.off r off) :=
  (reads_fetchByte _).append
    ((reads_fetchByte _).map (fun _ => by simp) (fun _ => rfl)) (fun _ => rfl)

theorem reads_readMemRef (m : MemRef) : Reads readMemRef (memBytes m) m := by
  cases m with
  | abs a =>
    exact (reads_fetchByte 0).append ((reads_readAddr a).map (fun _ => rfl) (fun _ => rfl))
      (fun _ => rfl)
  | ind r =>
    exact (reads_fetchByte 1).append ((reads_readReg r).map (fun _ => rfl) (fun _ => rfl))
      (fun _ => rfl)
  | off r off => exact (reads_fetchByte 2).append (reads_readRegOffset r off) (fun _ => rfl)

theorem reads_readOperand (p : Operand) : Reads (readOperand p.tag) (operandBytes p) p := by
  cases p with
  | reg r => exact (reads_readReg r).map (fun _ => rfl) (fun _ => rfl)
  | imm v => exact (reads_fetchByte v).map (fun _ => rfl) (fun _ => rfl)
  | mem m => exact (reads_readMemRef m).map (fun _ => rfl) (fun _ => rfl)


/-! ## Instructions by format -/

/-- R61: every instruction has one of the five formats. -/
inductive InFormat : Instr → Prop
  | z (o : ZOp) : InFormat (instrZ o)
  | j (o : JOp) (target : Addr) : InFormat (instrJ target o)
  | u (o : UOp) (p : Operand) : InFormat (instrU p o)
  | us (o : USOp) (p : Operand) (count : Count) : InFormat (instrUS p count o)
  | b (o : BOp) (p q : Operand) : InFormat (instrB p q o)

theorem inFormat (i : Instr) : InFormat i := by
  cases i with
  | hlt => exact .z .hlt
  | ret => exact .z .ret
  | mov p q => exact .b .mov p q
  | add p q => exact .b .add p q
  | sub p q => exact .b .sub p q
  | cmp p q => exact .b .cmp p q
  | and p q => exact .b .and p q
  | or p q => exact .b .or p q
  | xor p q => exact .b .xor p q
  | inc p => exact .u .inc p
  | dec p => exact .u .dec p
  | not p => exact .u .not p
  | shl p count => exact .us .shl p count
  | shr p count => exact .us .shr p count
  | rnd p => exact .u .rnd p
  | push p => exact .u .push p
  | pop p => exact .u .pop p
  | jmp target => exact .j .jmp target
  | jz target => exact .j .jz target
  | jnz target => exact .j .jnz target
  | call target => exact .j .call target

@[simp] theorem instrZ_mnemonic (o : ZOp) : (instrZ o).mnemonic = .z o := by cases o <;> rfl
@[simp] theorem instrJ_mnemonic (o : JOp) (a : Addr) : (instrJ a o).mnemonic = .j o := by
  cases o <;> rfl
@[simp] theorem instrU_mnemonic (o : UOp) (p : Operand) : (instrU p o).mnemonic = .u o := by
  cases o <;> rfl
@[simp] theorem instrUS_mnemonic (o : USOp) (p : Operand) (count : Count) :
    (instrUS p count o).mnemonic = .us o := by cases o <;> rfl
@[simp] theorem instrB_mnemonic (o : BOp) (p q : Operand) : (instrB p q o).mnemonic = .b o := by
  cases o <;> rfl

@[simp] theorem instrZ_wellFormed (o : ZOp) : (instrZ o).wellFormed = true := by cases o <;> rfl
@[simp] theorem instrJ_wellFormed (o : JOp) (a : Addr) : (instrJ a o).wellFormed = true := by
  cases o <;> rfl
@[simp] theorem instrU_wellFormed (o : UOp) (p : Operand) :
    (instrU p o).wellFormed = (!o.writes || p.writable) := by cases o <;> rfl
@[simp] theorem instrUS_wellFormed (o : USOp) (p : Operand) (count : Count) :
    (instrUS p count o).wellFormed = p.writable := by cases o <;> rfl
@[simp] theorem instrB_wellFormed (o : BOp) (p q : Operand) :
    (instrB p q o).wellFormed = (!o.writes || p.writable) := by cases o <;> rfl

/-- The bytes of an encoding after its opcode byte; they do not depend on the opcode map. -/
def bodyBytes (i : Instr) : List Byte := (encode i).tail

theorem encodeWith_eq_cons (t : OpcodeMap) (i : Instr) :
    encodeWith t i = t i.mnemonic :: bodyBytes i := by cases i <;> rfl

@[simp] theorem bodyBytes_instrZ (o : ZOp) : bodyBytes (instrZ o) = [] := by cases o <;> rfl
@[simp] theorem bodyBytes_instrJ (o : JOp) (a : Addr) : bodyBytes (instrJ a o) = addrBytes a := by
  cases o <;> rfl
@[simp] theorem bodyBytes_instrU (o : UOp) (p : Operand) :
    bodyBytes (instrU p o) = modeU p :: operandBytes p := by cases o <;> rfl
@[simp] theorem bodyBytes_instrUS (o : USOp) (p : Operand) (count : Count) :
    bodyBytes (instrUS p count o) =
      modeU p :: (operandBytes p ++ [BitVec.ofNat 8 count.val]) := by cases o <;> rfl
@[simp] theorem bodyBytes_instrB (o : BOp) (p q : Operand) :
    bodyBytes (instrB p q o) = modeB p q :: (operandBytes p ++ operandBytes q) := by
  cases o <;> rfl

/-! ## The bytes of each format -/

/-- R72, R81: the destination check accepts exactly what R72 allows. -/
theorem checkDest_tag (writes : Bool) (p : Operand) :
    checkDest writes p.tag = if !writes || p.writable then .ok () else .error .immDest := by
  cases writes <;> cases p <;> rfl

theorem reads_decodeJ (o : JOp) (a : Addr) : Reads (decodeJ o) (addrBytes a) (instrJ a o) :=
  (reads_readAddr a).map (fun _ => rfl) (fun _ => rfl)

theorem reads_decodeU {o : UOp} {p : Operand} (h : (!o.writes || p.writable) = true) :
    Reads (decodeU o) (modeU p :: operandBytes p) (instrU p o) := by
  refine (reads_fetchByte (modeU p)).append ?_ (fun _ => rfl)
  simp only [tagOfMode_modeU, checkDest_tag, h, if_true, except_ok_bind]
  exact (reads_readOperand p).map (fun _ => rfl) (fun _ => rfl)

theorem reads_decodeUS (o : USOp) {p : Operand} (count : Count) (h : p.writable = true) :
    Reads (decodeUS o) (modeU p :: (operandBytes p ++ [BitVec.ofNat 8 count.val]))
      (instrUS p count o) := by
  refine (reads_fetchByte (modeU p)).append ?_ (fun _ => rfl)
  simp only [tagOfMode_modeU, checkDest_tag, h, Bool.or_true, if_true, except_ok_bind]
  refine (reads_readOperand p).append ?_ (fun _ => rfl)
  dsimp only
  exact (reads_fetchByte _).map (fun _ => by simp) (fun _ => rfl)

theorem reads_decodeB {o : BOp} {p : Operand} (q : Operand)
    (h : (!o.writes || p.writable) = true) :
    Reads (decodeB o) (modeB p q :: (operandBytes p ++ operandBytes q)) (instrB p q o) := by
  refine (reads_fetchByte (modeB p q)).append ?_ (fun _ => rfl)
  simp only [tagsOfMode_modeB, checkDest_tag, h, if_true, except_ok_bind]
  refine (reads_readOperand p).append ?_ (fun _ => rfl)
  dsimp only
  exact (reads_readOperand q).map (fun _ => rfl) (fun _ => rfl)

/-- R85, R86: the body of a canonical encoding is read as its instruction. -/
theorem reads_decodeBody {i : Instr} (h : i.wellFormed = true) :
    Reads (decodeBody i.mnemonic) (bodyBytes i) i := by
  cases inFormat i with
  | z o =>
    rw [instrZ_mnemonic, bodyBytes_instrZ]
    exact ⟨fun _ => rfl, by simp⟩
  | j o target =>
    rw [instrJ_mnemonic, bodyBytes_instrJ]
    exact reads_decodeJ o target
  | u o p =>
    rw [instrU_mnemonic, bodyBytes_instrU]
    exact reads_decodeU (instrU_wellFormed o p ▸ h)
  | us o p count =>
    rw [instrUS_mnemonic, bodyBytes_instrUS]
    exact reads_decodeUS o count (instrUS_wellFormed o p count ▸ h)
  | b o p q =>
    rw [instrB_mnemonic, bodyBytes_instrB]
    exact reads_decodeB q (instrB_wellFormed o p q ▸ h)

/-! ## What a reading step that succeeds has read -/

theorem fetchByte_ok {bs rest : List Byte} {b : Byte} (h : fetchByte bs = .ok (b, rest)) :
    bs = b :: rest := by
  cases bs with
  | nil => cases h
  | cons _ _ =>
    cases h
    rfl

theorem regOfByte_ok {b : Byte} {r : Reg} (h : regOfByte b = .ok r) : b = regByte r := by
  unfold regOfByte at h
  split at h
  · cases h
    simp [regByte]
  · cases h

theorem countOfByte_ok {b : Byte} {count : Count} (h : countOfByte b = .ok count) :
    b = BitVec.ofNat 8 count.val := by
  unfold countOfByte at h
  split at h
  · cases h
    simp
  · cases h

theorem addrBytes_addrOfBytes (lo hi : Byte) : addrBytes (addrOfBytes lo hi) = [lo, hi] := by
  rw [addrBytes, addrOfBytes, BitVec.extractLsb'_append_eq_right,
    BitVec.extractLsb'_append_eq_left]

theorem readReg_ok {bs rest : List Byte} {r : Reg} (h : readReg bs = .ok (r, rest)) :
    bs = regByte r :: rest := by
  obtain ⟨⟨b, bs'⟩, hb, h⟩ := exists_ok_of_bind_eq_ok h
  obtain ⟨r', hr, h⟩ := exists_ok_of_bind_eq_ok h
  cases h
  rw [fetchByte_ok hb, regOfByte_ok hr]

theorem readAddr_ok {bs rest : List Byte} {a : Addr} (h : readAddr bs = .ok (a, rest)) :
    bs = addrBytes a ++ rest := by
  obtain ⟨⟨lo, bs'⟩, hlo, h⟩ := exists_ok_of_bind_eq_ok h
  obtain ⟨⟨hi, bs''⟩, hhi, h⟩ := exists_ok_of_bind_eq_ok h
  cases h
  rw [fetchByte_ok hlo, fetchByte_ok hhi, addrBytes_addrOfBytes]
  rfl

theorem readRegOffset_ok {bs rest : List Byte} {m : MemRef}
    (h : readRegOffset bs = .ok (m, rest)) : 2 :: bs = memBytes m ++ rest := by
  obtain ⟨⟨b, bs'⟩, hb, h⟩ := exists_ok_of_bind_eq_ok h
  obtain ⟨⟨off, bs''⟩, hoff, h⟩ := exists_ok_of_bind_eq_ok h
  obtain ⟨r, hr, h⟩ := exists_ok_of_bind_eq_ok h
  cases h
  rw [fetchByte_ok hb, fetchByte_ok hoff, regOfByte_ok hr]
  rfl

theorem readMemRef_ok {bs rest : List Byte} {m : MemRef} (h : readMemRef bs = .ok (m, rest)) :
    bs = memBytes m ++ rest := by
  obtain ⟨⟨sub, bs'⟩, hsub, h⟩ := exists_ok_of_bind_eq_ok h
  rw [fetchByte_ok hsub]
  dsimp only at h
  split at h
  next hzero =>
    obtain ⟨⟨a, bs''⟩, ha, h⟩ := exists_ok_of_bind_eq_ok h
    cases h
    rw [hzero, readAddr_ok ha]
    rfl
  split at h
  next hone =>
    obtain ⟨⟨r, bs''⟩, hr, h⟩ := exists_ok_of_bind_eq_ok h
    cases h
    rw [hone, readReg_ok hr]
    rfl
  split at h
  next htwo => rw [htwo, readRegOffset_ok h]
  next => cases h

theorem readOperand_ok {tag : Tag} {bs rest : List Byte} {p : Operand}
    (h : readOperand tag bs = .ok (p, rest)) : p.tag = tag ∧ bs = operandBytes p ++ rest := by
  cases tag with
  | reg =>
    obtain ⟨⟨r, bs'⟩, hr, h⟩ := exists_ok_of_bind_eq_ok h
    cases h
    exact ⟨rfl, readReg_ok hr⟩
  | imm =>
    obtain ⟨⟨v, bs'⟩, hv, h⟩ := exists_ok_of_bind_eq_ok h
    cases h
    exact ⟨rfl, fetchByte_ok hv⟩
  | mem =>
    obtain ⟨⟨m, bs'⟩, hm, h⟩ := exists_ok_of_bind_eq_ok h
    cases h
    exact ⟨rfl, readMemRef_ok hm⟩

theorem tagOfBits_ok {b : BitVec 2} {tag : Tag} (h : tagOfBits b = .ok tag) : b = tagBits tag := by
  unfold tagOfBits at h
  split at h
  next hb => cases h; exact hb
  split at h
  next hb => cases h; exact hb
  split at h
  next hb => cases h; exact hb
  next => cases h

/-- A bit field as a number. -/
theorem toNat_extractLsb'_eq_div {w : Nat} (x : BitVec w) (start len : Nat) :
    (x.extractLsb' start len).toNat = x.toNat / 2 ^ start % 2 ^ len := by
  rw [BitVec.extractLsb'_toNat, Nat.shiftRight_eq_div_pow]

theorem tagOfMode_ok {mode : Byte} {tag : Tag} (h : tagOfMode mode = .ok tag) {p : Operand}
    (hp : p.tag = tag) : mode = modeU p := by
  unfold tagOfMode at h
  split at h
  next hhigh =>
    have hhigh : mode.toNat / 2 ^ 2 % 2 ^ 6 = 0 := by rw [← toNat_extractLsb'_eq_div, hhigh]; rfl
    apply BitVec.eq_of_toNat_eq
    rw [modeU, hp, ← tagOfBits_ok h, BitVec.toNat_setWidth, toNat_extractLsb'_eq_div]
    omega
  next => cases h

theorem tagsOfMode_ok {mode : Byte} {tag0 tag1 : Tag} (h : tagsOfMode mode = .ok (tag0, tag1))
    {p q : Operand} (hp : p.tag = tag0) (hq : q.tag = tag1) : mode = modeB p q := by
  unfold tagsOfMode at h
  split at h
  next hhigh =>
    obtain ⟨t0, h0, h⟩ := exists_ok_of_bind_eq_ok h
    obtain ⟨t1, h1, h⟩ := exists_ok_of_bind_eq_ok h
    cases h
    have hhigh : mode.toNat / 2 ^ 4 % 2 ^ 4 = 0 := by rw [← toNat_extractLsb'_eq_div, hhigh]; rfl
    apply BitVec.eq_of_toNat_eq
    rw [modeB, hp, hq, ← tagOfBits_ok h0, ← tagOfBits_ok h1]
    simp only [BitVec.toNat_add, BitVec.toNat_mul, BitVec.toNat_setWidth, toNat_extractLsb'_eq_div,
      show (4 : Byte).toNat = 4 from rfl]
    omega
  next => cases h

/-! ## What the decoder can have read -/

theorem writable_of_checkDest {writes : Bool} {p : Operand} {u : Unit}
    (h : checkDest writes p.tag = .ok u) : (!writes || p.writable) = true := by
  rw [checkDest_tag] at h
  split at h
  next hw => exact hw
  next => cases h

/-- R80: `i` is a canonical instruction of mnemonic `m`, and `bs` begins with its body. -/
structure BodyRead (m : Mnemonic) (i : Instr) (bs rest : List Byte) : Prop where
  mnemonic : i.mnemonic = m
  wellFormed : i.wellFormed = true
  bytes : bs = bodyBytes i ++ rest

theorem decodeJ_ok {o : JOp} {bs rest : List Byte} {i : Instr}
    (h : decodeJ o bs = .ok (i, rest)) : BodyRead (.j o) i bs rest := by
  obtain ⟨⟨a, bs'⟩, ha, h⟩ := exists_ok_of_bind_eq_ok h
  cases h
  exact ⟨instrJ_mnemonic o a, instrJ_wellFormed o a, by rw [readAddr_ok ha, bodyBytes_instrJ]⟩

theorem decodeU_ok {o : UOp} {bs rest : List Byte} {i : Instr}
    (h : decodeU o bs = .ok (i, rest)) : BodyRead (.u o) i bs rest := by
  obtain ⟨⟨mode, bs'⟩, hmode, h⟩ := exists_ok_of_bind_eq_ok h
  obtain ⟨tag, htag, h⟩ := exists_ok_of_bind_eq_ok h
  obtain ⟨_, hdest, h⟩ := exists_ok_of_bind_eq_ok h
  obtain ⟨⟨p, bs''⟩, hp, h⟩ := exists_ok_of_bind_eq_ok h
  cases h
  obtain ⟨rfl, hbytes⟩ := readOperand_ok hp
  refine ⟨instrU_mnemonic o p, (instrU_wellFormed o p).trans (writable_of_checkDest hdest), ?_⟩
  rw [bodyBytes_instrU, fetchByte_ok hmode, hbytes, tagOfMode_ok htag rfl, List.cons_append]

theorem decodeUS_ok {o : USOp} {bs rest : List Byte} {i : Instr}
    (h : decodeUS o bs = .ok (i, rest)) : BodyRead (.us o) i bs rest := by
  obtain ⟨⟨mode, bs'⟩, hmode, h⟩ := exists_ok_of_bind_eq_ok h
  obtain ⟨tag, htag, h⟩ := exists_ok_of_bind_eq_ok h
  obtain ⟨_, hdest, h⟩ := exists_ok_of_bind_eq_ok h
  obtain ⟨⟨p, bs''⟩, hp, h⟩ := exists_ok_of_bind_eq_ok h
  obtain ⟨⟨b, bs'''⟩, hb, h⟩ := exists_ok_of_bind_eq_ok h
  obtain ⟨count, hcount, h⟩ := exists_ok_of_bind_eq_ok h
  cases h
  obtain ⟨rfl, hbytes⟩ := readOperand_ok hp
  refine ⟨instrUS_mnemonic o p count,
    (instrUS_wellFormed o p count).trans (writable_of_checkDest hdest), ?_⟩
  rw [bodyBytes_instrUS, fetchByte_ok hmode, hbytes, tagOfMode_ok htag rfl, fetchByte_ok hb,
    countOfByte_ok hcount]
  simp

theorem decodeB_ok {o : BOp} {bs rest : List Byte} {i : Instr}
    (h : decodeB o bs = .ok (i, rest)) : BodyRead (.b o) i bs rest := by
  obtain ⟨⟨mode, bs'⟩, hmode, h⟩ := exists_ok_of_bind_eq_ok h
  obtain ⟨⟨tag0, tag1⟩, htags, h⟩ := exists_ok_of_bind_eq_ok h
  obtain ⟨_, hdest, h⟩ := exists_ok_of_bind_eq_ok h
  obtain ⟨⟨p, bs''⟩, hp, h⟩ := exists_ok_of_bind_eq_ok h
  obtain ⟨⟨q, bs'''⟩, hq, h⟩ := exists_ok_of_bind_eq_ok h
  cases h
  obtain ⟨rfl, hbytes⟩ := readOperand_ok hp
  obtain ⟨rfl, hbytes'⟩ := readOperand_ok hq
  refine ⟨instrB_mnemonic o p q,
    (instrB_wellFormed o p q).trans (writable_of_checkDest hdest), ?_⟩
  rw [bodyBytes_instrB, fetchByte_ok hmode, hbytes, hbytes', tagsOfMode_ok htags rfl rfl]
  simp

theorem decodeBody_ok {m : Mnemonic} {bs rest : List Byte} {i : Instr}
    (h : decodeBody m bs = .ok (i, rest)) : BodyRead m i bs rest := by
  cases m with
  | z o =>
    cases h
    exact ⟨instrZ_mnemonic o, instrZ_wellFormed o, by rw [bodyBytes_instrZ, List.nil_append]⟩
  | j o => exact decodeJ_ok h
  | u o => exact decodeU_ok h
  | us o => exact decodeUS_ok h
  | b o => exact decodeB_ok h

/-! ## Decode and encode (R87) -/

theorem decodeRest_cons {t : OpcodeMap} {op : Byte} {m : Mnemonic}
    (h : lookupOpcode t op = some m) (bs : List Byte) :
    decodeRest t (op :: bs) = decodeBody m bs := by
  simp [decodeRest, h]

/-- Decode answers a canonical instruction, its own length and its own bytes, and finds its mnemonic
by the opcode byte. -/
theorem decodeWith_ok {t : OpcodeMap} {bs : List Byte} {i : Instr} {len : Nat}
    (h : decodeWith t bs = .ok (i, len)) :
    lookupOpcode t (t i.mnemonic) = some i.mnemonic ∧ i.wellFormed = true ∧ len = i.length ∧
      ∃ rest, bs = encodeWith t i ++ rest := by
  obtain ⟨⟨i', rest⟩, hrest, h⟩ := exists_ok_of_bind_eq_ok h
  cases h
  obtain ⟨⟨op, bs'⟩, hop, hbody⟩ := exists_ok_of_bind_eq_ok hrest
  cases hm : lookupOpcode t op with
  | none => simp [hm] at hbody
  | some m =>
    simp only [hm] at hbody
    obtain ⟨rfl, hwf, rfl⟩ := decodeBody_ok hbody
    obtain rfl := opcode_of_lookup hm
    have hbytes : bs = encodeWith t i ++ rest := by rw [fetchByte_ok hop, encodeWith_eq_cons]; rfl
    refine ⟨hm, hwf, ?_, rest, hbytes⟩
    rw [hbytes, List.length_append, encodeWith_length, Nat.add_sub_cancel]

/-- A canonical encoding whose opcode byte finds its mnemonic decodes, whatever follows. -/
theorem decodeWith_encodeWith_append {t : OpcodeMap} {i : Instr}
    (hm : lookupOpcode t (t i.mnemonic) = some i.mnemonic) (hwf : i.wellFormed = true)
    (rest : List Byte) : decodeWith t (encodeWith t i ++ rest) = .ok (i, i.length) := by
  have hrest : decodeRest t (encodeWith t i ++ rest) = .ok (i, rest) := by
    rw [encodeWith_eq_cons, List.cons_append, decodeRest_cons hm, (reads_decodeBody hwf).whole]
  rw [decodeWith, hrest, List.length_append, encodeWith_length]
  simp [pure, Except.pure]

/-- Settles O44: an injective opcode map finds every mnemonic by its own opcode byte, and the body
of a canonical encoding is read back whole. -/
theorem decodeOfEncode : Obligations.DecodeOfEncode := by
  unfold Obligations.DecodeOfEncode
  exact fun t i rest ht hwf => decodeWith_encodeWith_append (lookupOpcode_self ht _) hwf rest

/-- Settles O45: every reading step has consumed the bytes the encoder writes for what it read. -/
theorem encodeOfDecode : Obligations.EncodeOfDecode := by
  unfold Obligations.EncodeOfDecode
  intro t bs i len h
  obtain ⟨-, hwf, rfl, rest, rfl⟩ := decodeWith_ok h
  refine ⟨hwf, rfl, ?fits, ?bytes⟩
  case fits => simp [encodeWith_length]
  case bytes => rw [← encodeWith_length t i, List.take_left]

/-- Settles O46: the bytes consumed are a canonical encoding, which decodes before any others. -/
theorem decodeNeverLooksAhead : Obligations.DecodeNeverLooksAhead := by
  unfold Obligations.DecodeNeverLooksAhead
  intro t bs extra i len h
  obtain ⟨hm, hwf, rfl, rest, rfl⟩ := decodeWith_ok h
  rw [← encodeWith_length t i, List.take_left, encodeWith_length]
  exact decodeWith_encodeWith_append hm hwf extra

/-- Settles O47: a cut before the opcode byte leaves nothing to fetch, and one after it cuts the
body short. -/
theorem truncatedInstructionIsPastEnd : Obligations.TruncatedInstructionIsPastEnd := by
  unfold Obligations.TruncatedInstructionIsPastEnd
  intro t i n ht hwf hn
  rw [← encodeWith_length t i, encodeWith_eq_cons, List.length_cons] at hn
  rw [encodeWith_eq_cons]
  cases n with
  | zero => rfl
  | succ n =>
    rw [List.take_succ_cons, decodeWith, decodeRest_cons (lookupOpcode_self ht _),
      (reads_decodeBody hwf).cut n (by omega), except_error_bind]

/-- Settles O48: each list is decoded byte by byte. -/
theorem sampleWordsDecode : Obligations.SampleWordsDecode := by
  unfold Obligations.SampleWordsDecode
  decide

/-! ## Decoding in memory (R43, R93) -/

theorem fetchWindow_length (m : Memory) (a : Nat) :
    (fetchWindow m a).length = min maxLength (memSize - a) := by
  simp [fetchWindow]

theorem instr_length_pos (i : Instr) : 1 ≤ i.length := by
  rw [← encodeWith_length Config.machine.opcode i, encodeWith_eq_cons]
  exact Nat.succ_pos _

/-- R85: what decodes has at least its opcode byte. -/
theorem decodeAt_length_pos {t : OpcodeMap} {m : Memory} {a : Nat} {i : Instr} {len : Nat}
    (h : decodeAt t m a = .ok (i, len)) : 1 ≤ len := by
  obtain ⟨-, hlen, -, -⟩ := encodeOfDecode t (fetchWindow m a) i len h
  exact hlen ▸ instr_length_pos i

/-- What decodes in memory is canonical, has the length of R78 and lies in the window. -/
theorem decodeAt_ok {t : OpcodeMap} {m : Memory} {a : Nat} {i : Instr} {len : Nat}
    (h : decodeAt t m a = .ok (i, len)) :
    i.wellFormed = true ∧ len = i.length ∧ len ≤ (fetchWindow m a).length := by
  obtain ⟨hwf, hlen, hfits, -⟩ := encodeOfDecode t (fetchWindow m a) i len h
  exact ⟨hwf, hlen, hfits⟩

/-- Settles O39: what decodes lies in the window, which ends with memory. -/
theorem noInstructionCrossesTheEnd : Obligations.NoInstructionCrossesTheEnd := by
  unfold Obligations.NoInstructionCrossesTheEnd
  intro t m a i len h
  obtain ⟨-, -, hfits⟩ := decodeAt_ok h
  have hpos := decodeAt_length_pos h
  rw [fetchWindow_length] at hfits
  simp only [memSize] at hfits
  omega

end Sys2Proof.Machine
end

section
/-! PROOFS, family frames. What executing an instruction can do to the whole state, as one relation
(R91, R95, R96), and the frames that follow from it (R21 to R31, R47, R48). -/

namespace Sys2Proof.Machine

open Sys2Proof Sys2Proof.Claims

/-! ## What an instruction can do -/

/-- Instructions that write a result to operand 0 and set the flags from it, in the terms of the
obligations' tables: they move neither `sp` nor `pc` otherwise than to the successor. -/
structure WritesResult (i : Instr) (p : Operand) : Prop where
  wellFormed : i.wellFormed = p.writable
  dest : destOf i = some p
  store : ∀ s m, p = .mem m → storeAddr i s = some (s.effAddr m)
  sp : ∀ s, spAfter s i = s.sp.toNat
  pc : ∀ s, pcAfter s i = (s.pc.toNat + i.length) % 65536
  ne_hlt : i ≠ .hlt

/-- The draws an instruction consumes: RND one, every other none. -/
def drawsOf : Instr → Nat
  | .rnd _ => 1
  | _ => 0

/-- The state an instruction starts from once its draws are consumed. -/
def State.afterDraws (s : State) (i : Instr) : State := { s with draws := s.draws + drawsOf i }

/-- Everything `exec i s` can answer. -/
inductive Executes (s : State) : Instr → State → Prop
  | rejects {i : Instr} (h : i.wellFormed = false) : Executes s i (s.raiseHalt .immDest)
  | writes {i : Instr} {p : Operand} {d : Place} (r : Byte) (h : WritesResult i p)
      (hd : s.placeOf p = some d) :
      Executes s i ((((s.afterDraws i).writePlace d r).setZS r).advance i.length)
  | compares (p q : Operand) (r : Byte) :
      Executes s (.cmp p q) ((s.setZS r).advance (Instr.cmp p q).length)
  | pushes (p : Operand) (v : Byte) :
      Executes s (.push p) ((s.pushByte v).advance (Instr.push p).length)
  | pops {p : Operand} {d : Place} (hd : s.placeOf p = some d) :
      Executes s (.pop p) ((s.dropByte.writePlace d s.topByte).advance (Instr.pop p).length)
  | calls (target : Addr) (v : Byte) : Executes s (.call target) ((s.pushByte v).jumpTo target)
  | returns : Executes s .ret (s.dropByte.jumpTo (s.topByte.setWidth 16))
  | jumps (target : Addr) : Executes s (.jmp target) (s.jumpTo target)
  | jumpsIfZero (target : Addr) :
      Executes s (.jz target) (s.jumpTo (if s.flags.zero then target else s.pc + 3))
  | jumpsIfNotZero (target : Addr) :
      Executes s (.jnz target) (s.jumpTo (if s.flags.zero then s.pc + 3 else target))
  | halts : Executes s .hlt (s.raiseHalt .hlt)

theorem writesResult_of_dest {i : Instr} {p : Operand} (hdest : destOf i = some p)
    (hpop : i ≠ .pop p) : WritesResult i p := by
  cases i <;> cases hdest
  case pop => exact absurd rfl hpop
  all_goals exact ⟨rfl, rfl, fun s m hm => by subst hm; rfl, fun _ => rfl, fun _ => rfl, nofun⟩
/-- The shared completion answers one of the first two cases. -/
theorem executes_of_finishResult {i : Instr} {s : State} {p : Operand} {r : Byte}
    (hdest : destOf i = some p) (hpop : i ≠ .pop p)
    (hexec : p.writable = true → exec i s = (s.afterDraws i).finishResult i.length p r)
    (hhalts : p.writable = false → exec i s = .next (s.raiseHalt .immDest)) :
    ∃ t, exec i s = .next t ∧ Executes s i t := by
  have hwrites := writesResult_of_dest hdest hpop
  cases hp : p.writable with
  | true =>
    obtain ⟨d, hd, -⟩ := s.placeOf_of_writable hp
    have hd' : (s.afterDraws i).placeOf p = some d :=
      (State.placeOf_congr (fun _ => rfl) p).trans hd
    exact ⟨_, (hexec hp).trans (State.finishResult_of_place _ _ _ hd'), .writes r hwrites hd⟩
  | false => exact ⟨_, hhalts hp, .rejects (hwrites.wellFormed.trans hp)⟩

/-- The fall-through of a conditional jump is a jump to the successor. -/
theorem exec_jz_eq_jumpTo (target : Addr) (s : State) :
    exec (.jz target) s = .next (s.jumpTo (if s.flags.zero then target else s.pc + 3)) := by
  rw [exec_jz]
  split <;> rfl

theorem exec_jnz_eq_jumpTo (target : Addr) (s : State) :
    exec (.jnz target) s = .next (s.jumpTo (if s.flags.zero then s.pc + 3 else target)) := by
  rw [exec_jnz]
  split <;> rfl

/-- R91, R97: every instruction has a next state in every state, and it is one of these. -/
theorem exists_exec (i : Instr) (s : State) : ∃ t, exec i s = .next t ∧ Executes s i t := by
  have finish {p r} (hdest : destOf i = some p) (hpop : i ≠ .pop p) (hdraws : drawsOf i = 0)
      (h : exec i s = s.finishResult i.length p r) :=
    executes_of_finishResult hdest hpop
      (fun _ => by rw [h, State.afterDraws, hdraws, Nat.add_zero])
      (fun hp => by rw [h, State.finishResult_of_imm _ _ _ (s.placeOf_eq_none.mpr hp)])
  cases i with
  | mov p q | add p q | sub p q | and p q | or p q | xor p q | inc p | dec p | not p | shl p count
  | shr p count => exact finish rfl nofun rfl rfl
  | rnd p =>
    exact executes_of_finishResult (i := .rnd p) rfl nofun (exec_rnd_of_writable s)
      (exec_rnd_of_not_writable s)
  | pop p =>
    cases hp : p.writable with
    | true =>
      obtain ⟨d, hd, -⟩ := s.placeOf_of_writable hp
      exact ⟨_, exec_pop_of_place hd, .pops hd⟩
    | false => exact ⟨_, exec_pop_of_not_writable s hp, .rejects hp⟩
  | cmp p q => exact ⟨_, rfl, .compares p q _⟩
  | push p => exact ⟨_, rfl, .pushes p _⟩
  | call target => exact ⟨_, rfl, .calls target _⟩
  | ret => exact ⟨_, rfl, .returns⟩
  | hlt => exact ⟨_, rfl, .halts⟩
  | jmp target => exact ⟨_, rfl, .jumps target⟩
  | jz target => exact ⟨_, exec_jz_eq_jumpTo target s, .jumpsIfZero target⟩
  | jnz target => exact ⟨_, exec_jnz_eq_jumpTo target s, .jumpsIfNotZero target⟩

theorem executes_of_exec {i : Instr} {s t : State} (h : exec i s = .next t) : Executes s i t := by
  obtain ⟨u, hu, hexec⟩ := exists_exec i s
  cases hu.symm.trans h
  exact hexec

/-! ## Frames (R21, R47, R48) -/

/-- A place that is not the named register or address is left alone. -/
theorem placeByte_of_writes {s : State} {i : Instr} {p : Operand} {d e : Place} (r : Byte)
    (hd : s.placeOf p = some d) (he : s.placeOf p ≠ some e) :
    (((s.afterDraws i).writePlace d r).setZS r).placeByte e = s.placeByte e := by
  rw [State.placeByte_setZS, State.placeByte_writePlace_other]
  · cases e <;> rfl
  · rintro rfl
    exact he hd

/-- The place of operand 0 is no register but the instruction's destination register. -/
theorem placeOf_ne_reg {i : Instr} {p : Operand} {k : Reg} (hdest : destOf i = some p) (s : State)
    (hk : destReg i ≠ some k) : s.placeOf p ≠ some (.reg k) := by
  cases p with
  | reg r => simpa [destReg, hdest, State.placeOf] using hk
  | imm v => nofun
  | mem m => simp [State.placeOf]

/-- The place of operand 0 is no byte of memory but the one the instruction stores to. -/
theorem placeOf_ne_mem {i : Instr} {p : Operand} {a : Addr} {s : State}
    (hstore : ∀ m, p = .mem m → storeAddr i s = some (s.effAddr m))
    (ha : storeAddr i s ≠ some a) : s.placeOf p ≠ some (.mem a) := by
  cases p with
  | reg r => simp [State.placeOf]
  | imm v => nofun
  | mem m => simpa [hstore m rfl, State.placeOf] using ha

/-- A pop leaves every place alone but the one its operand names. -/
theorem placeByte_of_pops {s : State} {p : Operand} {d e : Place} (v : Byte)
    (hd : s.placeOf p = some d) (he : s.placeOf p ≠ some e) :
    (s.dropByte.writePlace d v).placeByte e = s.placeByte e := by
  rw [State.placeByte_writePlace_other, State.placeByte_dropByte]
  rintro rfl
  exact he hd

theorem Executes.getReg {i : Instr} {s t : State} {k : Reg} (h : Executes s i t)
    (hk : destReg i ≠ some k) : t.getReg k = s.getReg k := by
  cases h with
  | writes r h hd => exact placeByte_of_writes (e := .reg k) r hd (placeOf_ne_reg h.dest s hk)
  | pops hd => exact placeByte_of_pops (e := .reg k) _ hd (placeOf_ne_reg rfl s hk)
  | rejects | compares | pushes | calls | returns | jumps | jumpsIfZero | jumpsIfNotZero
  | halts => rfl

theorem Executes.readMem {i : Instr} {s t : State} {a : Addr} (h : Executes s i t)
    (ha : storeAddr i s ≠ some a) : t.readMem a = s.readMem a := by
  cases h with
  | writes r h hd => exact placeByte_of_writes (e := .mem a) r hd (placeOf_ne_mem (h.store s) ha)
  | @pops p d hd =>
    have hstore : ∀ m, p = .mem m → storeAddr (.pop p) s = some (s.effAddr m) := by
      rintro m rfl
      rfl
    exact placeByte_of_pops (e := .mem a) _ hd (placeOf_ne_mem hstore ha)
  | pushes p v => exact s.readMem_pushByte_other v fun e => ha (congrArg some e.symm)
  | calls target v => exact s.readMem_pushByte_other v fun e => ha (congrArg some e.symm)
  | rejects | compares | returns | jumps | jumpsIfZero | jumpsIfNotZero | halts => rfl

/-- Settles O26: the one place an instruction writes is a register only where that is its
destination. -/
theorem onlyDestinationRegisterChanges : Obligations.OnlyDestinationRegisterChanges := by
  unfold Obligations.OnlyDestinationRegisterChanges
  exact fun i s t k h hk => (executes_of_exec h).getReg hk

/-- Settles O27: memory is written at the place of the destination or at the pushed slot, and
nowhere else. -/
theorem onlyStoredByteChanges : Obligations.OnlyStoredByteChanges := by
  unfold Obligations.OnlyStoredByteChanges
  exact fun i s t a h ha => (executes_of_exec h).readMem ha

/-! ## Where `sp`, `pc` and the rest go (R24 to R31) -/

@[simp] theorem spAfter_push (s : State) (p : Operand) :
    spAfter s (.push p) = (s.sp.toNat + 65535) % 65536 := rfl
@[simp] theorem spAfter_call (s : State) (target : Addr) :
    spAfter s (.call target) = (s.sp.toNat + 65535) % 65536 := rfl
@[simp] theorem spAfter_pop (s : State) (p : Operand) :
    spAfter s (.pop p) = (s.sp.toNat + 1) % 65536 := rfl
@[simp] theorem spAfter_ret (s : State) : spAfter s .ret = (s.sp.toNat + 1) % 65536 := rfl

@[simp] theorem pcAfter_jz (s : State) (target : Addr) : pcAfter s (.jz target) =
    if s.flags.zero then target.toNat else (s.pc.toNat + 3) % 65536 := rfl
@[simp] theorem pcAfter_jnz (s : State) (target : Addr) : pcAfter s (.jnz target) =
    if s.flags.zero then (s.pc.toNat + 3) % 65536 else target.toNat := rfl
@[simp] theorem pcAfter_ret (s : State) : pcAfter s .ret = s.topByte.toNat := rfl

theorem Executes.sp {i : Instr} {s t : State} (h : Executes s i t) (hwf : i.wellFormed = true) :
    t.sp.toNat = spAfter s i := by
  cases h with
  | rejects hnot => simp [hwf] at hnot
  | writes r h hd => simpa [State.afterDraws] using (h.sp s).symm
  | pushes p =>
    rw [spAfter_push]
    exact toNat_addr_sub_one s.sp
  | calls target =>
    rw [spAfter_call]
    exact toNat_addr_sub_one s.sp
  | pops | returns => simp [BitVec.toNat_add]
  | compares | jumps | jumpsIfZero | jumpsIfNotZero | halts => rfl

theorem Executes.pc {i : Instr} {s t : State} (h : Executes s i t) (hwf : i.wellFormed = true) :
    t.pc.toNat = pcAfter s i := by
  cases h with
  | rejects hnot => simp [hwf] at hnot
  | writes r h hd =>
    rw [h.pc s]
    exact pcAfter_of_advance (by simp [State.afterDraws])
  | pops | compares | pushes => exact pcAfter_of_advance (by simp)
  | halts => exact pcAfter_of_advance rfl
  | returns =>
    rw [State.jumpTo_pc, pcAfter_ret]
    exact BitVec.toNat_setWidth_of_le (by decide)
  | calls | jumps => rfl
  | jumpsIfZero | jumpsIfNotZero =>
    cases hz : s.flags.zero
    all_goals simp [hz, BitVec.toNat_add]

/-- Settles O28: the canonical effects that push or pop move `sp` by one, and no other moves it. -/
theorem onlyStackInstructionsMoveStackPointer :
    Obligations.OnlyStackInstructionsMoveStackPointer := by
  unfold Obligations.OnlyStackInstructionsMoveStackPointer
  exact fun i s t hwf h => (executes_of_exec h).sp hwf

/-- Settles O29: a canonical effect either jumps or advances by the instruction's length. -/
theorem pcGoesToTargetOrSuccessor : Obligations.PcGoesToTargetOrSuccessor := by
  unfold Obligations.PcGoesToTargetOrSuccessor
  exact fun i s t hwf h => (executes_of_exec h).pc hwf

/-- R27, R31: no instruction, canonical or not, writes `C`, `O` or `prog_end`. -/
theorem Executes.reserved {i : Instr} {s t : State} (h : Executes s i t) :
    t.flags.carry = s.flags.carry ∧ t.flags.overflow = s.flags.overflow ∧
      t.progEnd = s.progEnd := by
  cases h with
  | writes | pops => simp [State.afterDraws]
  | rejects | compares | pushes | calls | returns | jumps | jumpsIfZero | jumpsIfNotZero
  | halts => exact ⟨rfl, rfl, rfl⟩

/-- R30: of the canonical instructions HLT alone clears the running bit, and none sets it. -/
theorem Executes.running {i : Instr} {s t : State} (h : Executes s i t)
    (hwf : i.wellFormed = true) : t.running = (s.running && decide (i ≠ .hlt)) := by
  cases h with
  | rejects hnot => simp [hwf] at hnot
  | writes r h hd => simp [State.afterDraws, h.ne_hlt]
  | pops => simp
  | compares | pushes | calls | returns | jumps | jumpsIfZero | jumpsIfNotZero => simp
  | halts => simp

theorem Executes.draws {i : Instr} {s t : State} (h : Executes s i t)
    (hwf : i.wellFormed = true) : t.draws = s.draws + drawsOf i := by
  cases h with
  | rejects hnot => simp [hwf] at hnot
  | writes | pops => simp [State.afterDraws, drawsOf]
  | compares | pushes | calls | returns | jumps | jumpsIfZero | jumpsIfNotZero | halts => rfl

/-- Settles O30: the reserved fields stand under every effect, and the running bit and the draw
counter follow the instruction. -/
theorem canonicalInstructionsKeepReservedState :
    Obligations.CanonicalInstructionsKeepReservedState := by
  unfold Obligations.CanonicalInstructionsKeepReservedState
  intro i s t hwf h
  have h := executes_of_exec h
  obtain ⟨hcarry, hoverflow, hprogEnd⟩ := h.reserved
  exact ⟨hcarry, hoverflow, hprogEnd, h.running hwf, h.draws hwf⟩

/-! ## Halts (R200, R201, R204) -/

/-- What clears the running bit leaves the halt state. -/
theorem Executes.eq_haltOf {i : Instr} {s t : State} (h : Executes s i t)
    (hrun : s.running = true) (hhalt : t.running = false) : t = haltOf s := by
  cases h with
  | rejects | halts => rfl
  | writes | pops | compares | pushes | calls | returns | jumps | jumpsIfZero | jumpsIfNotZero =>
    simp [State.afterDraws, hrun] at hhalt

/-- A step that halts has rejected the bytes at `pc` or executed what leaves the halt state. -/
theorem step_eq_haltOf {s t : State} (hrun : s.running = true) (h : step s = .next t)
    (hhalt : t.running = false) : t = haltOf s := by
  obtain ⟨hstopped, -⟩ | ⟨-, cause, -, rfl⟩ | ⟨-, i, len, -, hexec⟩ := step_cases h
  · simp [hrun] at hstopped
  · rfl
  · exact (executes_of_exec hexec).eq_haltOf hrun hhalt

end Sys2Proof.Machine
end

section
/-! PROOFS, family 40_step_and_operands.md and 60_exceptions.md. The step by what is at `pc` (R90 to
R94), its continue signal, and the halt with its recoverable cause (R200 to R204). -/

namespace Sys2Proof.Machine

open Sys2Proof Sys2Proof.Claims

/-! ## The step by what is at `pc` -/

/-- Settles O31: a decoded instruction is executed. -/
theorem stepRunsTheDecodedInstruction : Obligations.StepRunsTheDecodedInstruction := by
  unfold Obligations.StepRunsTheDecodedInstruction
  exact fun s i len hrun hd => step_of_decode_ok hrun hd

/-- Settles O32: the halt state does not depend on the cause, and its running bit is the signal. -/
theorem invalidEncodingHalts : Obligations.InvalidEncodingHalts := by
  unfold Obligations.InvalidEncodingHalts
  intro s cause hrun hd
  have hstep : step s = .next (haltOf s) := step_of_decode_error hrun hd
  exact ⟨hstep, by rw [hstep, continueSignal_next, haltOf_running]⟩

/-- Settles O33: a halted Machine answers its own state, whose running bit is the signal. -/
theorem haltedStepChangesNothing : Obligations.HaltedStepChangesNothing := by
  unfold Obligations.HaltedStepChangesNothing
  intro s hrun
  have hstep := step_of_halted hrun
  exact ⟨hstep, by rw [hstep, continueSignal_next, hrun]⟩

/-- Settles O34: a halted Machine, a rejected encoding and every instruction have a next state. -/
theorem everyStepAnswersAState : Obligations.EveryStepAnswersAState := by
  unfold Obligations.EveryStepAnswersAState
  intro s
  cases hrun : s.running with
  | false => exact ⟨s, step_of_halted hrun⟩
  | true =>
    cases hd : decodeAt Config.machine.opcode s.mem s.pc.toNat with
    | error cause => exact ⟨_, step_of_decode_error hrun hd⟩
    | ok r =>
      obtain ⟨t, ht, -⟩ := exists_exec r.1 s
      exact ⟨t, (step_of_decode_ok hrun hd).trans ht⟩

/-- A running step of a decoded instruction leaves the Machine running unless that is HLT. -/
theorem running_of_exec_decoded {s t : State} {i : Instr} {len : Nat} (hrun : s.running = true)
    (hd : decodeAt Config.machine.opcode s.mem s.pc.toNat = .ok (i, len))
    (h : exec i s = .next t) : t.running = decide (i ≠ .hlt) := by
  obtain ⟨hwf, -, -⟩ := decodeAt_ok hd
  rw [(executes_of_exec h).running hwf, hrun, Bool.true_and]

/-- Settles O35: of the three cases of a step only the executed one can leave the Machine running,
and what decodes is canonical. -/
theorem continueIffCanonicalAndNotHlt : Obligations.ContinueIffCanonicalAndNotHlt := by
  unfold Obligations.ContinueIffCanonicalAndNotHlt
  intro s
  obtain ⟨t, ht⟩ := everyStepAnswersAState s
  rw [ht, continueSignal_next]
  obtain ⟨hrun, rfl⟩ | ⟨hrun, cause, hd, rfl⟩ | ⟨hrun, i, len, hd, hexec⟩ := step_cases ht
  · simp [hrun]
  · simp [hd]
  · simp [running_of_exec_decoded hrun hd hexec, hrun, hd]

/-! ## The halt -/

/-- Settles O36: a step that halts leaves the halt state. -/
theorem haltsArePrecise : Obligations.HaltsArePrecise := by
  unfold Obligations.HaltsArePrecise
  exact fun s t hrun h hhalt => step_eq_haltOf hrun h hhalt

/-- The window begins with the byte at its address. -/
theorem fetchWindow_eq_cons (m : Memory) {a : Nat} (ha : a < memSize) :
    ∃ bs, fetchWindow m a = m.read a :: bs := by
  obtain ⟨n, hn⟩ : ∃ n, min maxLength (memSize - a) = n + 1 :=
    Nat.exists_eq_succ_of_ne_zero (by simp only [maxLength, memSize] at *; omega)
  exact ⟨_, by rw [fetchWindow, hn, List.range_succ_eq_map]; rfl⟩

theorem lookupOpcode_eq_none {t : OpcodeMap} {op : Byte} (h : ∀ m, t m ≠ op) :
    lookupOpcode t op = none := by
  cases hm : lookupOpcode t op with
  | none => rfl
  | some m => exact absurd (opcode_of_lookup hm) (h m)

theorem decodeAt_of_unknown_opcode {t : OpcodeMap} {mem : Memory} {a : Nat} (ha : a < memSize)
    (h : ∀ m, t m ≠ mem.read a) : decodeAt t mem a = .error .unknownOpcode := by
  obtain ⟨bs, hbs⟩ := fetchWindow_eq_cons mem ha
  simp [decodeAt, decodeWith, decodeRest, hbs, lookupOpcode_eq_none h]

/-- Settles O37: an unknown opcode does not decode, and HLT leaves the same halt state. -/
theorem unknownOpcodeActsAsHlt : Obligations.UnknownOpcodeActsAsHlt := by
  unfold Obligations.UnknownOpcodeActsAsHlt
  intro s hrun h
  rw [step_of_decode_error hrun (decodeAt_of_unknown_opcode s.pc.isLt h)]
  rfl

/-- R202: the halt state differs from the state before it in `running` and `pc`, and both can be
taken back. -/
theorem lastHaltCause_haltOf (c : Config) {s : State} (hrun : s.running = true) :
    lastHaltCause c (haltOf s) = haltCauseUnder c s := by
  have hback : { haltOf s with running := true, pc := (haltOf s).pc - 1 } = s := by
    rw [← hrun, haltOf, add_sub_cancel_right]
  rw [lastHaltCause, hback]

/-- A running step that halts has a cause: the one decode gave, or HLT. -/
theorem exists_haltCause {s t : State} (hrun : s.running = true) (h : step s = .next t)
    (hhalt : t.running = false) : ∃ cause, haltCauseUnder Config.machine s = some cause := by
  obtain ⟨hstopped, -⟩ | ⟨-, cause, hd, -⟩ | ⟨-, i, len, hd, hexec⟩ := step_cases h
  · simp [hrun] at hstopped
  · exact ⟨cause, by simp [haltCauseUnder, hrun, hd]⟩
  · have hrunning := running_of_exec_decoded hrun hd hexec
    obtain rfl : i = .hlt := by simpa [hhalt] using hrunning
    exact ⟨.hlt, by simp [haltCauseUnder, hrun, hd]⟩

/-- Settles O38: a halting step leaves the halt state, from which the state before it can be had
back. -/
theorem haltCauseIsRecoverable : Obligations.HaltCauseIsRecoverable := by
  unfold Obligations.HaltCauseIsRecoverable
  intro s t hrun h hhalt
  obtain ⟨cause, hcause⟩ := exists_haltCause hrun h hhalt
  obtain rfl := step_eq_haltOf hrun h hhalt
  exact ⟨cause, hcause, (lastHaltCause_haltOf _ hrun).trans hcause⟩

end Sys2Proof.Machine
end

section
/-! PROOFS, family configurations and independence. The step under any configuration refined by the
plain one (R94, U2 to U8), and what a step does not depend on (R29, R31, R137). -/

namespace Sys2Proof.Machine

open Sys2Proof Sys2Proof.Claims

/-! ## The step under any configuration -/

/-- Everything a step under `c` can answer as a next state. -/
theorem stepUnder_cases {c : Config} {s t : State} (h : stepUnder c s = .next t) :
    (s.running = false ∧ t = s) ∨
    (s.running = true ∧ ∃ cause,
      decodeAt c.opcode s.mem s.pc.toNat = .error cause ∧ t = s.raiseHalt cause) ∨
    (s.running = true ∧ ∃ i len,
      decodeAt c.opcode s.mem s.pc.toNat = .ok (i, len) ∧ exec i s = .next t) := by
  unfold stepUnder at h
  split at h
  next hrun =>
    split at h
    next cause hd =>
      split at h
      · cases h
      · cases h
        exact .inr (.inl ⟨hrun, cause, hd, rfl⟩)
    next i len hd =>
      split at h
      · cases h
      · exact .inr (.inr ⟨hrun, i, len, hd, h⟩)
  next hstopped =>
    cases h
    exact .inl ⟨by simpa using hstopped, rfl⟩

/-- Settles O41: whatever answers a next state does so by a case that the plain settings share. -/
theorem cautiousStepsRefineSteps : Obligations.CautiousStepsRefineSteps := by
  unfold Obligations.CautiousStepsRefineSteps
  intro c s t h
  obtain ⟨hrun, rfl⟩ | ⟨hrun, cause, hd, rfl⟩ | ⟨hrun, i, len, hd, hexec⟩ := stepUnder_cases h
  · simp [stepUnder, hrun]
  · simp [stepUnder, hrun, hd]
  · simp [stepUnder, hrun, hd, hexec]

/-! ## The unread state (R29, R31) -/

/-- The state with `S`, `C`, `O` and `prog_end` forgotten. -/
def State.forgetUnread (s : State) : State :=
  { s with
    flags := { zero := s.flags.zero, sign := false, carry := false, overflow := false }
    progEnd := 0 }

theorem sameButUnread_iff {s t : State} :
    SameButUnread s t ↔ s.forgetUnread = t.forgetUnread := by
  simp [SameButUnread, State.forgetUnread]

theorem State.forgetUnread_finishResult {s t : State} {len : Nat} {p : Operand} {r : Byte}
    (h : s.finishResult len p r = .next t) :
    ∃ t', s.forgetUnread.finishResult len p r = .next t' ∧ t'.forgetUnread = t.forgetUnread := by
  cases p <;> cases h <;> exact ⟨_, rfl, rfl⟩

/-- An instruction run from the state with the unread fields forgotten leaves what it would have
left, the unread fields aside. -/
theorem exec_forgetUnread {i : Instr} {s t : State} (h : exec i s = .next t) :
    ∃ t', exec i s.forgetUnread = .next t' ∧ t'.forgetUnread = t.forgetUnread := by
  cases i with
  | mov p q | add p q | sub p q | and p q | or p q | xor p q | inc p | dec p | not p | shl p count
  | shr p count => exact State.forgetUnread_finishResult h
  | rnd p | pop p => cases p <;> cases h <;> exact ⟨_, rfl, rfl⟩
  | jz target =>
    cases (exec_jz_eq_jumpTo target s).symm.trans h
    exact ⟨_, exec_jz_eq_jumpTo target _, rfl⟩
  | jnz target =>
    cases (exec_jnz_eq_jumpTo target s).symm.trans h
    exact ⟨_, exec_jnz_eq_jumpTo target _, rfl⟩
  | cmp | push | hlt | ret | jmp | call =>
    cases h
    exact ⟨_, rfl, rfl⟩

/-- So does a step, since memory, `pc` and the running bit are not forgotten. -/
theorem step_forgetUnread {s t : State} (h : step s = .next t) :
    ∃ t', step s.forgetUnread = .next t' ∧ t'.forgetUnread = t.forgetUnread := by
  obtain ⟨hrun, rfl⟩ | ⟨hrun, cause, hd, rfl⟩ | ⟨hrun, i, len, hd, hexec⟩ := step_cases h
  · exact ⟨_, step_of_halted (s := t.forgetUnread) hrun, rfl⟩
  · exact ⟨_, step_of_decode_error (s := s.forgetUnread) hrun hd, rfl⟩
  · rw [step_of_decode_ok (s := s.forgetUnread) hrun hd]
    exact exec_forgetUnread hexec

/-- Settles O42: two states alike but for the unread fields become one when these are forgotten, and
forgetting them before a step changes nothing else after it. -/
theorem unreadStateHasNoInfluence : Obligations.UnreadStateHasNoInfluence := by
  unfold Obligations.UnreadStateHasNoInfluence
  intro s s' t hsame h
  obtain ⟨t', h'⟩ := everyStepAnswersAState s'
  obtain ⟨u, hu, hut⟩ := step_forgetUnread h
  obtain ⟨u', hu', hut'⟩ := step_forgetUnread h'
  rw [sameButUnread_iff] at hsame
  rw [← hsame, hu] at hu'
  cases hu'
  exact ⟨t', h', sameButUnread_iff.mpr (hut.symm.trans hut')⟩

/-! ## The entropy source (R137) -/

/-- The state with another count of draws. -/
def State.withDraws (s : State) (n : Nat) : State := { s with draws := n }

theorem State.withDraws_finishResult {s t : State} {len n : Nat} {p : Operand} {r : Byte}
    (h : s.finishResult len p r = .next t) :
    ∃ t', (s.withDraws n).finishResult len p r = .next t' ∧ t'.withDraws t.draws = t := by
  cases p <;> cases h <;> exact ⟨_, rfl, rfl⟩

/-- RND under another count that draws the same byte. -/
theorem exec_rnd_withDraws {p : Operand} {s t : State} {n : Nat}
    (hbyte : Config.entropy n = Config.entropy s.draws) (h : exec (.rnd p) s = .next t) :
    ∃ t', exec (.rnd p) (s.withDraws n) = .next t' ∧ t'.withDraws t.draws = t := by
  cases hp : p.writable with
  | true =>
    have hdrawn : (s.withDraws n).drawn = s.drawn := hbyte
    rw [exec_rnd_of_writable s hp] at h
    rw [exec_rnd_of_writable _ hp, hdrawn]
    exact State.withDraws_finishResult (s := s.consumeDraw) (n := n + 1) h
  | false =>
    rw [exec_rnd_of_not_writable s hp] at h
    cases h
    exact ⟨_, exec_rnd_of_not_writable _ hp, rfl⟩

/-- The count of draws acts on an instruction only through the byte RND draws. -/
theorem exec_withDraws {i : Instr} {s t : State} {n : Nat}
    (hbyte : (∀ p, i ≠ .rnd p) ∨ Config.entropy n = Config.entropy s.draws)
    (h : exec i s = .next t) :
    ∃ t', exec i (s.withDraws n) = .next t' ∧ t'.withDraws t.draws = t := by
  cases i with
  | mov p q | add p q | sub p q | and p q | or p q | xor p q | inc p | dec p | not p | shl p count
  | shr p count => exact State.withDraws_finishResult h
  | rnd p =>
    obtain hne | hsame := hbyte
    · exact absurd rfl (hne p)
    · exact exec_rnd_withDraws hsame h
  | pop p => cases p <;> cases h <;> exact ⟨_, rfl, rfl⟩
  | jz target =>
    cases (exec_jz_eq_jumpTo target s).symm.trans h
    exact ⟨_, exec_jz_eq_jumpTo target _, rfl⟩
  | jnz target =>
    cases (exec_jnz_eq_jumpTo target s).symm.trans h
    exact ⟨_, exec_jnz_eq_jumpTo target _, rfl⟩
  | cmp | push | hlt | ret | jmp | call =>
    cases h
    exact ⟨_, rfl, rfl⟩

/-- Settles O43: decoding reads no count of draws, and an instruction only the byte it draws. -/
theorem entropyMattersOnlyToRnd : Obligations.EntropyMattersOnlyToRnd := by
  unfold Obligations.EntropyMattersOnlyToRnd
  intro s t n hbyte h
  change ∃ t', step (s.withDraws n) = .next t' ∧ t'.withDraws t.draws = t
  obtain ⟨hrun, rfl⟩ | ⟨hrun, cause, hd, rfl⟩ | ⟨hrun, i, len, hd, hexec⟩ := step_cases h
  · exact ⟨_, step_of_halted (s := t.withDraws n) hrun, rfl⟩
  · exact ⟨_, step_of_decode_error (s := s.withDraws n) hrun hd, rfl⟩
  · rw [step_of_decode_ok (s := s.withDraws n) hrun hd]
    refine exec_withDraws (hbyte.imp_left fun hno p hi => hno p len ?_) hexec
    rw [hd, hi]

end Sys2Proof.Machine
end

section
/-! PROOFS, family invariant (10_state.md, 70_reset_and_hazards.md). What reset and a program load
leave (R34, R220, R221), and the invariant that every transaction keeps (R20, R27, R222). -/

namespace Sys2Proof.Machine

open Sys2Proof Sys2Proof.Claims

/-! ## Reset -/

@[simp] theorem State.getReg_resetUnder (c : Config) (r : Reg) :
    (State.resetUnder c).getReg r = 0 := by
  simp [State.getReg]

@[simp] theorem State.readMem_resetUnder (c : Config) (a : Addr) :
    (State.resetUnder c).readMem a = 0 := rfl

/-- Settles O49: the reset state with the count of draws kept. -/
theorem resetSetsEveryField : Obligations.ResetSetsEveryField := by
  unfold Obligations.ResetSetsEveryField
  exact fun c s => ⟨_, rfl, State.getReg_resetUnder c, rfl, rfl, rfl, rfl,
    State.readMem_resetUnder c, rfl, rfl⟩

/-! ## A program load -/

/-- Bytes stored one after the other read back, since at most 65536 of them do not overlap. -/
theorem Memory.read_writeBytes_same {m : Memory} (h : m.wf) (a : Nat) {bs : List Byte}
    (hlen : bs.length ≤ memSize) {k : Nat} (hk : k < bs.length) :
    (m.writeBytes a bs).read ((a + k) % memSize) = bs[k] := by
  induction bs generalizing m a k with
  | nil => simp at hk
  | cons b bs ih =>
    have hwf : (m.write (a % memSize) b).wf := Memory.wf_write h (Nat.mod_lt _ (by decide)) b
    simp only [List.length_cons] at hlen hk
    rw [Memory.writeBytes]
    cases k with
    | zero =>
      have hapart : ∀ j < bs.length, a % memSize ≠ (a + 1 + j) % memSize := fun j hj => by
        simp only [memSize] at hlen ⊢
        omega
      rw [Nat.add_zero a, Memory.read_writeBytes_other _ _ _ hapart, Memory.read_write_same h,
        List.getElem_cons_zero]
    | succ k =>
      rw [show a + (k + 1) = a + 1 + k by omega, ih hwf (a + 1) (by omega) (by omega),
        List.getElem_cons_succ]

/-- Settles O50: the bytes read back where they were stored, and a load writes nothing else. -/
theorem loadProgramCopiesAtBase : Obligations.LoadProgramCopiesAtBase := by
  unfold Obligations.LoadProgramCopiesAtBase
  intro bytes base s hwf hbase hlen
  have hload : base < memSize ∧ bytes.length ≤ memSize := ⟨Nat.lt_succ_of_le hbase, hlen⟩
  refine ⟨_, if_pos hload, fun k hk => Memory.read_writeBytes_same hwf base hlen hk,
    fun a ha => Memory.read_writeBytes_other _ _ _ ha, ?pc, rfl, rfl, rfl, rfl, rfl, rfl⟩
  case pc => exact Nat.mod_eq_of_lt hload.1

/-! ## The invariant -/

/-- Settles O51: the reset state has empty memory, clear flags and `prog_end` 0. -/
theorem resetMeetsInvariant : Obligations.ResetMeetsInvariant := by
  unfold Obligations.ResetMeetsInvariant
  exact ⟨Memory.wf_nil, rfl, rfl, Nat.zero_le _⟩

/-- R41: every effect of an instruction keeps memory canonical. -/
theorem Executes.memory_wf {i : Instr} {s t : State} (h : Executes s i t) (hwf : s.mem.wf) :
    t.mem.wf := by
  cases h with
  | writes => exact State.wf_writePlace (s := s.afterDraws i) hwf _ _
  | pops => exact State.wf_writePlace (s := s.dropByte) hwf _ _
  | pushes | calls => exact State.wf_pushByte hwf _
  | rejects | compares | returns | jumps | jumpsIfZero | jumpsIfNotZero | halts => exact hwf

theorem Executes.inv {i : Instr} {s t : State} (h : Executes s i t) (hinv : s.Inv) : t.Inv := by
  obtain ⟨hmem, hcarry, hoverflow, hprogEnd⟩ := hinv
  obtain ⟨hcarry', hoverflow', hprogEnd'⟩ := h.reserved
  exact ⟨h.memory_wf hmem, hcarry'.trans hcarry, hoverflow'.trans hoverflow, hprogEnd' ▸ hprogEnd⟩

theorem stepUnder_inv {c : Config} {s t : State} (hinv : s.Inv) (h : stepUnder c s = .next t) :
    t.Inv := by
  obtain ⟨-, rfl⟩ | ⟨-, cause, -, rfl⟩ | ⟨-, i, len, -, hexec⟩ := stepUnder_cases h
  · exact hinv
  · exact ⟨hinv.memory, hinv.carry, hinv.overflow, hinv.progEnd⟩
  · exact (executes_of_exec hexec).inv hinv

/-- Settles O52: the step of this machine is the step under its configuration, which keeps the
invariant in each of its cases. -/
theorem stepKeepsInvariant : Obligations.StepKeepsInvariant := by
  unfold Obligations.StepKeepsInvariant
  exact fun s t hinv h => stepUnder_inv (c := Config.machine) hinv h

/-- A base below 65536 and at most 65536 bytes end at 131071 at most. -/
theorem loadProgram_inv {bytes : List Byte} {base : Nat} {s t : State} (hinv : s.Inv)
    (h : loadProgram bytes base s = .next t) : t.Inv := by
  unfold loadProgram at h
  split at h
  next hdom =>
    cases h
    obtain ⟨hbase, hlen⟩ := hdom
    refine ⟨Memory.wf_writeBytes hinv.memory base bytes, hinv.carry, hinv.overflow, ?_⟩
    simp only [memSize] at hbase hlen ⊢
    omega
  next => cases h

/-- Settles O53: reset meets the invariant, and a load and a step keep it. -/
theorem transactionsKeepInvariant : Obligations.TransactionsKeepInvariant := by
  unfold Obligations.TransactionsKeepInvariant
  intro c x s t hinv h
  cases x with
  | reset =>
    cases h
    exact ⟨Memory.wf_nil, rfl, rfl, Nat.zero_le _⟩
  | loadProgram bytes base => exact loadProgram_inv hinv h
  | step => exact stepUnder_inv hinv h

end Sys2Proof.Machine
end

section
/-! PROOFS, family addresses, calls and stack discipline (R99, R142, R150 to R152). -/

namespace Sys2Proof.Machine

open Sys2Proof Sys2Proof.Claims

/-! ## The effective address (R99) -/

@[simp] theorem State.effAddr_abs (s : State) (a : Addr) : s.effAddr (.abs a) = a := rfl

theorem State.toNat_effAddr_ind (s : State) (r : Reg) :
    (s.effAddr (.ind r)).toNat = (s.getReg r).toNat :=
  BitVec.toNat_setWidth_of_le (by decide)

/-- The register plus the signed offset, modulo 65536. -/
theorem State.toNat_effAddr_off (s : State) (r : Reg) (off : Byte) :
    ((s.effAddr (.off r off)).toNat : Int) = (((s.getReg r).toNat : Int) + off.toInt) % 65536 := by
  have hoff : ((off.signExtend 16).toNat : Int) = off.toInt % 65536 := by
    rw [BitVec.signExtend, BitVec.toNat_ofInt]
    omega
  have hreg : ((s.getReg r).setWidth 16).toNat = (s.getReg r).toNat := s.toNat_effAddr_ind r
  rw [State.effAddr, BitVec.toNat_add, hreg, Int.natCast_emod, Int.natCast_add, hoff]
  omega

/-- Settles O23: each mode as a number; a register is at most 255 and an offset between -128 and
127, so a sum is at most 382 or has wrapped to at least 65408. -/
theorem effectiveAddressByMode : Obligations.EffectiveAddressByMode := by
  unfold Obligations.EffectiveAddressByMode
  refine fun s => ⟨s.effAddr_abs, s.toNat_effAddr_ind, s.toNat_effAddr_off, fun r off => ?reach⟩
  case reach =>
    have hsum := s.toNat_effAddr_off r off
    have hreg := (s.getReg r).isLt
    have hlo := BitVec.le_toInt off
    have hhi := BitVec.toInt_lt (x := off)
    omega

/-! ## CALL and RET (R150, R151) -/

theorem exec_call (target : Addr) (s : State) :
    exec (.call target) s = .next ((s.pushByte ((s.pc + 3).setWidth 8)).jumpTo target) := rfl

theorem exec_ret (s : State) :
    exec .ret s = .next (s.dropByte.jumpTo (s.topByte.setWidth 16)) := rfl

/-- D13: the byte CALL pushes, as a number. -/
theorem toNat_returnByte (pc : Addr) :
    ((pc + 3).setWidth 8 : Byte).toNat = (pc.toNat + 3) % 256 := by
  bv_omega

/-- D13: a popped byte is the same number as an address. -/
theorem toNat_byte_setWidth (b : Byte) : (b.setWidth 16).toNat = b.toNat :=
  BitVec.toNat_setWidth_of_le (by decide)

/-- Settles O19: CALL leaves the state with the low return byte pushed, `pc` at the target. -/
theorem callPushesLowByteOfReturn : Obligations.CallPushesLowByteOfReturn := by
  unfold Obligations.CallPushesLowByteOfReturn
  refine fun target s => ⟨encodesJ_instrJ .call target, fun hwf => ⟨_, exec_call target s, rfl,
    toNat_addr_sub_one s.sp, ?slot, fun a ha => ?other, fun k => rfl, rfl, rfl, rfl, rfl⟩⟩
  case slot =>
    rw [State.readMem_jumpTo, State.readMem_pushByte_same hwf, toNat_returnByte]
  case other =>
    rw [State.readMem_jumpTo]
    exact s.readMem_pushByte_other _ ha

/-- Settles O20: RET drops the top byte and jumps to it. -/
theorem retZeroExtendsPoppedByte : Obligations.RetZeroExtendsPoppedByte := by
  unfold Obligations.RetZeroExtendsPoppedByte
  refine fun s => ⟨rfl, _, exec_ret s, toNat_byte_setWidth s.topByte, ?sp,
    ⟨fun k => rfl, fun a => rfl⟩, rfl, rfl, rfl, rfl⟩
  case sp => simp [BitVec.toNat_add]

/-- Settles O55: RET pops the byte CALL has just pushed, which is the whole return address exactly
in page zero. -/
theorem retAfterCallReturnsInPageZero : Obligations.RetAfterCallReturnsInPageZero := by
  unfold Obligations.RetAfterCallReturnsInPageZero
  intro target s t hwf h
  rw [exec_call] at h
  cases h
  have htop :
      ((s.pushByte ((s.pc + 3).setWidth 8)).jumpTo target).topByte = (s.pc + 3).setWidth 8 :=
    State.readMem_pushByte_same hwf _
  refine ⟨_, exec_ret _, ?sp, ?pc, ?page⟩
  case sp => simp
  case pc => rw [htop, State.jumpTo_pc, toNat_byte_setWidth, toNat_returnByte]
  case page =>
    rw [htop, State.jumpTo_pc, ← BitVec.toNat_inj, toNat_byte_setWidth, toNat_returnByte,
      BitVec.toNat_add]
    change _ = (s.pc.toNat + 3) % 65536 ↔ _
    omega

/-! ## Stack discipline (R142) -/

/-- The bytes `xs` stand on the stack, the top one first. -/
def StackHolds (s : State) (xs : List Byte) : Prop :=
  ∀ k, (h : k < xs.length) → s.readMem (s.sp + BitVec.ofNat 16 k) = xs[k]

theorem stackHolds_nil (s : State) : StackHolds s [] := fun _ h => absurd h (Nat.not_lt_zero _)

/-- A push puts its byte on top of the others, as long as they do not fill the whole memory. -/
theorem StackHolds.push {s : State} {xs : List Byte} (h : StackHolds s xs) (hwf : s.mem.wf)
    (hlen : xs.length < 65536) (v : Byte) (len : Nat) :
    StackHolds ((s.pushByte v).advance len) (v :: xs) := by
  intro k hk
  rw [State.readMem_advance, State.advance_sp, State.pushByte_sp]
  cases k with
  | zero => simpa using State.readMem_pushByte_same hwf v
  | succ k =>
    rw [List.length_cons, Nat.succ_lt_succ_iff] at hk
    have hslot : s.sp - 1 + BitVec.ofNat 16 (k + 1) = s.sp + BitVec.ofNat 16 k := by bv_omega
    have hapart : s.sp + BitVec.ofNat 16 k ≠ s.sp - 1 := by bv_omega
    rw [hslot, State.readMem_pushByte_other _ _ hapart, h k hk, List.getElem_cons_succ]

theorem StackHolds.top {s : State} {x : Byte} {xs : List Byte} (h : StackHolds s (x :: xs)) :
    s.topByte = x := by
  simpa [State.topByte] using h 0 (Nat.succ_pos _)

/-- The state a pop into a register leaves. -/
def State.popInto (s : State) (r : Reg) : State :=
  (s.dropByte.setReg r s.topByte).advance (lengthU (.reg r))

theorem exec_pop_reg (r : Reg) (s : State) : exec (.pop (.reg r)) s = .next (s.popInto r) := rfl

/-- A pop into a register leaves the other bytes on the stack. -/
theorem StackHolds.pop {s : State} {x : Byte} {xs : List Byte} (h : StackHolds s (x :: xs))
    (r : Reg) : StackHolds (s.popInto r) xs := by
  intro k hk
  have hslot : s.sp + 1 + BitVec.ofNat 16 k = s.sp + BitVec.ofNat 16 (k + 1) := by bv_omega
  have hbyte : s.readMem (s.sp + BitVec.ofNat 16 (k + 1)) = xs[k] := h (k + 1) (Nat.succ_lt_succ hk)
  rw [← hbyte, ← hslot]
  rfl

/-- Pushes put their bytes on the stack in reverse order, on top of what stood there. -/
theorem pushAll_spec {ps : List Operand} {s t : State} {vs xs : List Byte} (hwf : s.mem.wf)
    (hxs : StackHolds s xs) (hlen : xs.length + ps.length ≤ 65536)
    (h : pushAll ps s = some (vs, t)) :
    StackHolds t (vs.reverse ++ xs) ∧ vs.length = ps.length ∧
      t.sp + BitVec.ofNat 16 ps.length = s.sp ∧ t.flags = s.flags := by
  induction ps generalizing s vs xs with
  | nil =>
    cases h
    exact ⟨hxs, rfl, by simp, rfl⟩
  | cons p ps ih =>
    simp only [pushAll, exec_push, Option.map_eq_some_iff, Prod.mk.injEq] at h
    obtain ⟨r, hrest, rfl, rfl⟩ := h
    rw [List.length_cons] at hlen
    obtain ⟨hstack, hcount, hsp, hflags⟩ :=
      ih (s := (s.pushByte (s.readOp p)).advance (lengthU p)) (State.wf_pushByte hwf _)
        (hxs.push hwf (by omega) _ _) (by rw [List.length_cons]; omega) hrest
    refine ⟨?stack, congrArg Nat.succ hcount, ?sp, hflags⟩
    case stack => simpa using hstack
    case sp =>
      rw [State.advance_sp, State.pushByte_sp] at hsp
      rw [List.length_cons]
      bv_omega

/-- Pops into registers yield the bytes on the stack, the top one first. -/
theorem popAll_spec {rs : List Reg} {s : State} {xs : List Byte} (hxs : StackHolds s xs)
    (hlen : rs.length = xs.length) :
    ∃ u, popAll rs s = some (xs, u) ∧ u.sp = s.sp + BitVec.ofNat 16 rs.length ∧
      u.flags = s.flags := by
  induction rs generalizing s xs with
  | nil =>
    obtain rfl : xs = [] := List.length_eq_zero_iff.mp hlen.symm
    exact ⟨s, rfl, by simp, rfl⟩
  | cons r rs ih =>
    cases xs with
    | nil => cases hlen
    | cons x xs =>
      obtain ⟨u, hrest, hsp, hflags⟩ := ih (hxs.pop r) (Nat.succ_injective hlen)
      have hx : (s.popInto r).getReg r = x := by simp [State.popInto, hxs.top]
      refine ⟨u, ?bytes, ?sp, hflags⟩
      case bytes => simp [popAll, exec_pop_reg, hrest, hx]
      case sp =>
        have hdrop : (s.popInto r).sp = s.sp + 1 := rfl
        rw [hsp, hdrop, List.length_cons]
        bv_omega

/-- Settles O54: the pushes leave their bytes on the stack in reverse order, and the pops yield what
is on the stack. -/
theorem popsReturnPushedBytesInReverse : Obligations.PopsReturnPushedBytesInReverse := by
  unfold Obligations.PopsReturnPushedBytesInReverse
  intro ps rs s t vs hwf hlen hcount hpush
  obtain ⟨hstack, hbytes, hsp, hflags⟩ :=
    pushAll_spec hwf (stackHolds_nil s) (by simpa using hlen) hpush
  rw [List.append_nil] at hstack
  obtain ⟨u, hpop, husp, huflags⟩ := popAll_spec (rs := rs) hstack (by simp [hcount, hbytes])
  exact ⟨u, hpop, by rw [husp, hcount, hsp], huflags.trans hflags⟩

end Sys2Proof.Machine
end

section
/-! PROOFS, family 49_disassembler.md. The listing loop (R191 to R194): its two kinds of entry, and
the cover of the range they make. -/

namespace Sys2Proof.Machine

open Sys2Proof Sys2Proof.Claims

/-! ## One turn of the loop -/

/-- The byte of an instruction's entry is the byte of memory (R192). -/
theorem getElem_take_fetchWindow (m : Memory) (a len k : Nat)
    (h : k < ((fetchWindow m a).take len).length) :
    ((fetchWindow m a).take len)[k] = m.read (a + k) := by
  simp [fetchWindow]

theorem instrEntry_raw_length {c : Config} {m : Memory} {a len : Nat} {i : Instr}
    (h : decodeAt c.opcode m a = .ok (i, len)) : (instrEntry c m a len i).raw.length = len := by
  obtain ⟨-, -, hfits⟩ := decodeAt_ok h
  exact List.length_take_of_le hfits

/-- R193: HLT takes one byte, so it fits wherever it begins. -/
theorem length_of_decodeAt_hlt {t : OpcodeMap} {m : Memory} {a len : Nat}
    (h : decodeAt t m a = .ok (.hlt, len)) : len = 1 := by
  obtain ⟨-, hlen, -⟩ := decodeAt_ok h
  exact hlen

/-- An instruction that fits, and what follows it unless it is HLT. -/
theorem covers_instrEntry {c : Config} {m : Memory} {stop a len : Nat} {i : Instr}
    {es : List ListingEntry} (hd : decodeAt c.opcode m a = .ok (i, len)) (hfits : a + len ≤ stop)
    (hrest : i ≠ .hlt → Covers c m stop (a + len) es) :
    Covers c m stop a (instrEntry c m a len i :: if i = .hlt then [] else es) := by
  have hraw := instrEntry_raw_length hd
  have hpos := decodeAt_length_pos hd
  refine ⟨rfl, by omega, by omega, fun k hk => getElem_take_fetchWindow m a len k hk, ?instr, ?raw,
    ?halts, ?continues⟩
  case instr =>
    intro i' len' hd' _
    cases hd.symm.trans hd'
    exact ⟨hraw, rfl⟩
  case raw => exact fun h => absurd (h i len hd) (by omega)
  case halts =>
    rintro ⟨len', hd'⟩
    cases hd.symm.trans hd'
    exact if_pos rfl
  case continues =>
    intro hne
    have hi : i ≠ .hlt := fun hi => hne ⟨len, hi ▸ hd⟩
    rw [if_neg hi, hraw]
    exact hrest hi

/-- A raw byte where nothing decodes that fits, and what follows it. -/
theorem covers_rawEntry {c : Config} {m : Memory} {stop a : Nat} {es : List ListingEntry}
    (ha : a < stop) (hnone : ∀ i len, decodeAt c.opcode m a = .ok (i, len) → stop < a + len)
    (hrest : Covers c m stop (a + 1) es) : Covers c m stop a (rawEntry m a :: es) := by
  refine ⟨rfl, le_rfl, ha, ?byte, ?instr, fun _ => ⟨rfl, rfl⟩, ?halts, fun _ => hrest⟩
  case byte =>
    intro k hk
    obtain rfl : k = 0 := Nat.lt_one_iff.mp hk
    rfl
  case instr => exact fun i len hd hfits => absurd (hnone i len hd) (by omega)
  case halts =>
    rintro ⟨len, hd⟩
    have hpast := hnone _ _ hd
    rw [length_of_decodeAt_hlt hd] at hpast
    omega

/-! ## The loop -/

theorem covers_listFrom (c : Config) (m : Memory) {stop fuel a : Nat} (ha : a ≤ stop)
    (hfuel : stop - a ≤ fuel) : Covers c m stop a (listFrom c m stop fuel a) := by
  induction fuel generalizing a with
  | zero => exact Nat.le_antisymm ha (Nat.sub_eq_zero_iff_le.mp (Nat.le_zero.mp hfuel))
  | succ fuel ih =>
    unfold listFrom
    split
    next hlt =>
      split
      next cause hd =>
        refine covers_rawEntry hlt ?_ (ih hlt (by omega))
        simp [hd]
      next i len hd =>
        have hpos := decodeAt_length_pos hd
        split
        next hfits => exact covers_instrEntry hd hfits fun _ => ih hfits (by omega)
        next hpast =>
          refine covers_rawEntry hlt (fun i' len' hd' => ?_) (ih hlt (by omega))
          cases hd.symm.trans hd'
          exact Nat.lt_of_not_le hpast
    next hge => exact Nat.le_antisymm ha (Nat.le_of_not_lt hge)

/-- Settles O56: every turn of the loop moves up, so its fuel suffices to cover the range. -/
theorem listingCoversTheRange : Obligations.ListingCoversTheRange := by
  unfold Obligations.ListingCoversTheRange
  exact fun c m start stop hle _ => covers_listFrom c m hle le_rfl

end Sys2Proof.Machine
end

section
/-! PROOFS, family 48_assembler.md, canonical output. What the Encoder parses is canonical once
linked (R72, R173), so Pass 2 emits canonical encodings in the lengths of Pass 1 (R178). -/

namespace Sys2Proof.Machine

open Sys2Proof Sys2Proof.Claims

theorem ok_of_atToken_eq_ok {α : Type} {token : Text} {x : Except AsmErrorKind α} {a : α}
    (h : atToken token x = .ok a) : x = .ok a := by
  cases x with
  | error k => cases h
  | ok b =>
    cases h
    rfl

theorem resolveOperand_writable (address : Text → Nat) (p : AsmOperand) :
    (resolveOperand address p).writable = !isImmediate p := by
  cases p <;> rfl

/-- R173: an operand 0 that passes the check is linked to one the instruction may have there. -/
theorem writable_of_checkAsmDest {writes : Bool} {p : AsmOperand} {u : Unit}
    (h : checkAsmDest writes p = .ok u) (address : Text → Nat) :
    (!writes || (resolveOperand address p).writable) = true := by
  rw [resolveOperand_writable]
  unfold checkAsmDest at h
  split at h
  next => cases h
  next hno => rw [← Bool.not_and, Bool.eq_false_of_not_eq_true hno, Bool.not_false]

/-- A parsed instruction is canonical, whatever addresses its labels get. -/
theorem parseInstr_wellFormed {c : Config} {token : Text} {ops : List Text} {i : AsmInstr}
    (h : parseInstr c token ops = .ok i) (address : Text → Nat) :
    (resolveInstr address i).wellFormed = true := by
  unfold parseInstr at h
  split at h
  next => cases h
  next =>
    split at h
    next =>
      cases h
      exact instrZ_wellFormed _
    next =>
      obtain ⟨p, -, h⟩ := exists_ok_of_bind_eq_ok h
      obtain ⟨target, -, h⟩ := exists_ok_of_bind_eq_ok h
      cases h
      exact instrJ_wellFormed _ _
    next =>
      obtain ⟨p, -, h⟩ := exists_ok_of_bind_eq_ok h
      obtain ⟨_, hdest, h⟩ := exists_ok_of_bind_eq_ok h
      cases h
      exact (instrU_wellFormed _ _).trans
        (writable_of_checkAsmDest (ok_of_atToken_eq_ok hdest) address)
    next =>
      obtain ⟨p, -, h⟩ := exists_ok_of_bind_eq_ok h
      obtain ⟨count, -, h⟩ := exists_ok_of_bind_eq_ok h
      obtain ⟨_, hdest, h⟩ := exists_ok_of_bind_eq_ok h
      cases h
      exact (instrUS_wellFormed _ _ _).trans
        (writable_of_checkAsmDest (ok_of_atToken_eq_ok hdest) address)
    next =>
      obtain ⟨p, -, h⟩ := exists_ok_of_bind_eq_ok h
      obtain ⟨q, -, h⟩ := exists_ok_of_bind_eq_ok h
      obtain ⟨_, hdest, h⟩ := exists_ok_of_bind_eq_ok h
      cases h
      exact (instrB_wellFormed _ _ _).trans
        (writable_of_checkAsmDest (ok_of_atToken_eq_ok hdest) address)
    next => cases h

/-- Every item of Pass 1 is linked to a canonical instruction. -/
theorem PassOneInv.linkItem_wellFormed {c : Config} {origin : Nat} {done : List (Nat × Text)}
    {st : PassOne} (h : PassOneInv c origin done st) {item : AsmItem} (hitem : item ∈ st.items) :
    (linkItem st.symtab item).wellFormed = true := by
  have hmem : itemParse item ∈ lineParses c done := h.parses ▸ List.mem_map_of_mem hitem
  obtain ⟨l, -, heq⟩ := List.mem_map.mp hmem
  exact parseInstr_wellFormed (congrArg Prod.snd heq) _

/-- The linked encodings take the bytes that Pass 1 reserved. -/
theorem length_flatten_linkItem (t : OpcodeMap) (tab : SymTab) (items : List AsmItem) :
    ((items.map (linkItem tab)).map (encodeWith t)).flatten.length = itemsSize items := by
  rw [List.length_flatten, itemsSize, List.map_map, List.map_map]
  exact congrArg List.sum (List.map_congr_left fun item _ => (linkItem_length t tab item).symm)

/-- Settles O58: Pass 1 keeps the size in memory and parses canonical instructions, and Pass 2 emits
their encodings in that size. -/
theorem assembledBytesAreCanonical : Obligations.AssembledBytesAreCanonical := by
  unfold Obligations.AssembledBytesAreCanonical
  intro c origin source p h
  obtain ⟨st, hone, htwo, horigin⟩ := assemble_ok h
  obtain ⟨hinv, hfits⟩ := passOne_ok hone
  obtain ⟨hbytes, -⟩ := passTwo_ok htwo
  refine ⟨horigin, ?fits, _, ?canonical, hbytes⟩
  case fits =>
    rw [hbytes, length_flatten_linkItem, ← hinv.pc]
    exact hfits
  case canonical =>
    simpa using fun item hitem => hinv.linkItem_wellFormed hitem

end Sys2Proof.Machine
end

section
/-! PROOFS, family text (48_assembler.md R163 to R172, 49_disassembler.md R195, R196). Numerals and
register names read back, then operands, then a whole line, then the program of one line. -/

namespace Sys2Proof.Machine

open Sys2Proof Sys2Proof.Claims

/-! ## Numerals -/

theorem digitValue_digitChar : ∀ d < 16, digitValue (digitChar d) = some d := by decide

theorem isDigit_digitChar : ∀ d < 10, isDigit (digitChar d) = true := by decide

/-- The number that digits of a base stand for, onto a value. -/
def ofDigits (base v : Nat) (ds : List Nat) : Nat := ds.foldl (fun v d => v * base + d) v

theorem readDigits_map_digitChar {base : Nat} (hbase : base ≤ 16) {ds : List Nat}
    (hds : ∀ d ∈ ds, d < base) (v : Nat) :
    readDigits base v (ds.map digitChar) = some (ofDigits base v ds) := by
  induction ds generalizing v with
  | nil => rfl
  | cons d ds ih =>
    obtain ⟨hd, hds⟩ := List.forall_mem_cons.mp hds
    simp [readDigits, digitValue_digitChar d (hd.trans_le hbase), hd, ih hds, ofDigits]

/-- The text of a number below 1000 is its decimal digits. -/
theorem exists_decimal_digits {n : Nat} (hn : n < 1000) : ∃ ds : List Nat,
    decimalText n = ds.map digitChar ∧ ds ≠ [] ∧ (∀ d ∈ ds, d < 10) ∧ ofDigits 10 0 ds = n := by
  unfold decimalText
  split
  next h => exact ⟨[n], rfl, by simp, by simpa using h, by simp [ofDigits]⟩
  split
  next h =>
    refine ⟨[n / 10, n % 10], rfl, by simp, ?_, ?_⟩
    · exact List.forall_mem_cons.mpr ⟨by omega, List.forall_mem_singleton.mpr (by omega)⟩
    · change (0 * 10 + n / 10) * 10 + n % 10 = n
      omega
  next =>
    refine ⟨[n / 100, n / 10 % 10, n % 10], rfl, by simp, ?_, ?_⟩
    · exact List.forall_mem_cons.mpr ⟨by omega,
        List.forall_mem_cons.mpr ⟨by omega, List.forall_mem_singleton.mpr (by omega)⟩⟩
    · change ((0 * 10 + n / 100) * 10 + n / 10 % 10) * 10 + n % 10 = n
      omega

/-- The text of an address is `0x` and four hexadecimal digits. -/
theorem exists_hex_digits (a : Addr) : ∃ ds : List Nat,
    hexAddrText a = '0' :: 'x' :: ds.map digitChar ∧ ds ≠ [] ∧ (∀ d ∈ ds, d < 16) ∧
      ofDigits 16 0 ds = a.toNat := by
  refine ⟨[a.toNat / 4096, a.toNat / 256 % 16, a.toNat / 16 % 16, a.toNat % 16], rfl, by simp,
    ?_, ?_⟩
  · have hhigh : a.toNat / 4096 < 16 := by omega
    simpa using ⟨hhigh, by omega, by omega, by omega⟩
  · change (((0 * 16 + a.toNat / 4096) * 16 + a.toNat / 256 % 16) * 16 + a.toNat / 16 % 16) * 16 +
      a.toNat % 16 = a.toNat
    omega

/-- R169: digits alone are decimal, since the `x` of a hexadecimal literal is no digit. -/
theorem readUnsigned_of_isDigit {t : Text} (h : ∀ c ∈ t, isDigit c = true) :
    readUnsigned t = readNumeral 10 t := by
  unfold readUnsigned
  split
  next => exact absurd (h 'x' (by simp)) (by decide)
  next => exact absurd (h 'X' (by simp)) (by decide)
  next => rfl

theorem readUnsigned_decimalText {n : Nat} (hn : n < 1000) :
    readUnsigned (decimalText n) = some n := by
  obtain ⟨ds, htext, hne, hds, hvalue⟩ := exists_decimal_digits hn
  have hdigits : ∀ c ∈ ds.map digitChar, isDigit c = true := by
    simpa using fun d hd => isDigit_digitChar d (hds d hd)
  rw [htext, readUnsigned_of_isDigit hdigits, readNumeral, if_neg (by simpa using hne),
    readDigits_map_digitChar (by decide) hds, hvalue]

theorem readUnsigned_hexAddrText (a : Addr) : readUnsigned (hexAddrText a) = some a.toNat := by
  obtain ⟨ds, htext, hne, hds, hvalue⟩ := exists_hex_digits a
  rw [htext, readUnsigned, readNumeral, if_neg (by simpa using hne),
    readDigits_map_digitChar le_rfl hds, hvalue]

/-- R169: without a minus sign a literal is the unsigned one. -/
theorem readSigned_of_not_minus {t : Text} (h : t.head? ≠ some '-') :
    readSigned t = (readUnsigned t).map (fun v => (v : Int)) := by
  unfold readSigned
  split
  next => exact absurd rfl h
  next => rfl

theorem readSigned_decimalText {n : Nat} (hn : n < 1000) :
    readSigned (decimalText n) = some (n : Int) := by
  obtain ⟨ds, htext, -, hds, -⟩ := exists_decimal_digits hn
  have hminus : (decimalText n).head? ≠ some '-' := by
    intro h
    obtain ⟨d, hd, hc⟩ := List.mem_map.mp (htext ▸ List.mem_of_mem_head? h)
    have hdigit := isDigit_digitChar d (hds d hd)
    rw [hc] at hdigit
    exact absurd hdigit (by decide)
  rw [readSigned_of_not_minus hminus, readUnsigned_decimalText hn]
  rfl

theorem readLiteral_hexAddrText (a : Addr) :
    readLiteral (hexAddrText a) = some (a.toNat : Int) := by
  have h : readLiteral (hexAddrText a) = (readUnsigned (hexAddrText a)).map (fun v => (v : Int)) :=
    rfl
  rw [h, readUnsigned_hexAddrText]
  rfl

/-! ## Register names (R168) -/

theorem lookupRegister_regName :
    ∀ r : Reg, lookupRegister Config.machine (Config.machine.regName r) = some r := by decide

/-- Every register name begins with `E` or `R`. -/
theorem lookupRegister_eq_none {t : Text} (h : (upper t).head? ∉ [some 'E', some 'R']) :
    lookupRegister Config.machine t = none := by
  have hnames : ∀ e ∈ (List.finRange 8).map (fun r => (Config.machine.regName r, r)) ++
      Config.machine.regAlias, (upper e.1).head? ∈ [some 'E', some 'R'] := by decide
  rw [lookupRegister, List.find?_eq_none.mpr, Option.map_none]
  intro e he heq
  exact h (eq_of_beq heq ▸ hnames e he)

/-! ## Memory operands (R170) -/

theorem offsetByte_toNat {off : Byte} (h : off.toNat < 128) :
    offsetByte (off.toNat : Int) = some off := by
  rw [offsetByte, if_pos (by omega)]
  simp

theorem offsetByte_neg {off : Byte} (h : ¬ off.toNat < 128) :
    offsetByte (-((256 - off.toNat : Nat) : Int)) = some off := by
  have hoff := off.isLt
  rw [offsetByte, if_pos (by omega), Option.some_inj]
  apply BitVec.eq_of_toNat_eq
  rw [BitVec.toNat_ofInt]
  omega

/-- R195: the offset text reads back as the offset. -/
theorem bracketTail_offsetText (r : Reg) (off : Byte) :
    bracketTail r (offsetText off) = .ok (.off r off) := by
  have hoff := off.isLt
  unfold offsetText
  split
  next h =>
    have hread := readUnsigned_decimalText (n := off.toNat) (by omega)
    simp [bracketTail, hread, offsetByte_toNat h]
  next h =>
    have hread := readUnsigned_decimalText (n := 256 - off.toNat) (by omega)
    simp [bracketTail, hread, offsetByte_neg h]

/-- A register name is no literal, whatever follows it. -/
theorem readUnsigned_regName_append (r : Reg) (tail : Text) :
    readUnsigned (Config.machine.regName r ++ tail) = none := by
  fin_cases r <;> rfl

theorem regName_no_sign :
    ∀ r : Reg, (Config.machine.regName r).all (fun c => !isSign c) = true := by decide

/-- R170: a register name, then nothing or what begins with a sign. -/
theorem parseBracketInside_regName (r : Reg) {tail : Text}
    (h : tail.takeWhile (fun c => !isSign c) = []) :
    parseBracketInside Config.machine (Config.machine.regName r ++ tail) = bracketTail r tail := by
  have hrest : tail.dropWhile (fun c => !isSign c) = tail := by
    simpa [h] using List.takeWhile_append_dropWhile (p := fun c => !isSign c) (l := tail)
  rw [parseBracketInside, readUnsigned_regName_append]
  have hname := List.all_eq_true.mp (regName_no_sign r)
  simp only [List.takeWhile_append_of_pos hname, List.dropWhile_append_of_pos hname, h, hrest,
    List.append_nil, lookupRegister_regName]

theorem offsetText_takeWhile (off : Byte) :
    (offsetText off).takeWhile (fun c => !isSign c) = [] := by
  unfold offsetText
  split <;> rfl

/-- The inside of a memory operand's brackets (R195). -/
def insideText : MemRef → Text
  | .abs a => hexAddrText a
  | .ind r => Config.machine.regName r
  | .off r off => Config.machine.regName r ++ offsetText off

theorem memRefText_eq (m : MemRef) :
    memRefText Config.machine m = '[' :: (insideText m ++ [']']) := by
  cases m with
  | abs a | ind r => rfl
  | off r off => simp [memRefText, insideText]

theorem parseBracketInside_insideText (m : MemRef) :
    parseBracketInside Config.machine (insideText m) = .ok m := by
  cases m with
  | abs a => simp [insideText, parseBracketInside, readUnsigned_hexAddrText]
  | ind r =>
    have h := parseBracketInside_regName r (tail := []) rfl
    rwa [List.append_nil] at h
  | off r off =>
    rw [insideText, parseBracketInside_regName r (offsetText_takeWhile off), bracketTail_offsetText]

/-! ## Characters of the listing text -/

/-- A character that neither ends a token nor begins a comment or defines a label (R163 to R165). -/
def isPlain (c : Char) : Bool := !isBlank c && c != '\n' && c != ';' && c != ',' && c != ':'

theorem isPlain_iff {c : Char} :
    isPlain c = true ↔ isBlank c = false ∧ c ≠ '\n' ∧ c ≠ ';' ∧ c ≠ ',' ∧ c ≠ ':' := by
  simp [isPlain, and_assoc]

theorem not_isBlank_of_plain {c : Char} (h : isPlain c = true) : isBlank c = false :=
  (isPlain_iff.mp h).1

theorem isPlain_digitChar : ∀ d < 16, isPlain (digitChar d) = true := by decide

theorem decimalText_plain {n : Nat} (hn : n < 1000) : ∀ c ∈ decimalText n, isPlain c = true := by
  obtain ⟨ds, htext, -, hds, -⟩ := exists_decimal_digits hn
  rw [htext]
  simpa using fun d hd => isPlain_digitChar d ((hds d hd).trans (by decide))

theorem hexAddrText_plain (a : Addr) : ∀ c ∈ hexAddrText a, isPlain c = true := by
  obtain ⟨ds, htext, -, hds, -⟩ := exists_hex_digits a
  rw [htext, List.forall_mem_cons, List.forall_mem_cons]
  exact ⟨by decide, by decide, by simpa using fun d hd => isPlain_digitChar d (hds d hd)⟩

theorem regName_plain : ∀ r : Reg, (Config.machine.regName r).all isPlain = true := by decide

theorem offsetText_plain (off : Byte) : ∀ c ∈ offsetText off, isPlain c = true := by
  have hoff := off.isLt
  unfold offsetText
  split
  next => exact List.forall_mem_cons.mpr ⟨by decide, decimalText_plain (by omega)⟩
  next => exact List.forall_mem_cons.mpr ⟨by decide, decimalText_plain (by omega)⟩

theorem insideText_plain (m : MemRef) : ∀ c ∈ insideText m, isPlain c = true := by
  cases m with
  | abs a => exact hexAddrText_plain a
  | ind r => exact List.all_eq_true.mp (regName_plain r)
  | off r off =>
    exact List.forall_mem_append.mpr ⟨List.all_eq_true.mp (regName_plain r), offsetText_plain off⟩

/-! ## Operands (R167) -/

/-- R167, try 3: a token in brackets is no register name and no literal. -/
theorem parseOperand_bracket {inside : Text} (h : ∀ c ∈ inside, isPlain c = true) :
    parseOperand Config.machine ('[' :: (inside ++ [']'])) =
      (parseBracketInside Config.machine inside).map .mem := by
  have hfilter : inside.filter (fun c => !isBlank c) = inside :=
    List.filter_eq_self.mpr fun c hc => by rw [not_isBlank_of_plain (h c hc)]; rfl
  have hnone : lookupRegister Config.machine ('[' :: (inside ++ [']'])) = none :=
    lookupRegister_eq_none (by simp [upper, upperChar])
  have hliteral : readLiteral ('[' :: (inside ++ [']'])) = none := rfl
  simp [parseOperand, hnone, hliteral, parseBracket, hfilter]

/-- Settles O59: each kind of operand text is read at its own try. -/
theorem operandTextParsesBack : Obligations.OperandTextParsesBack := by
  unfold Obligations.OperandTextParsesBack
  intro p
  cases p with
  | reg r => simp [parseOperand, operandText, lookupRegister_regName, asAsmOperand]
  | imm v =>
    have hv := v.isLt
    have hnone : lookupRegister Config.machine ('#' :: decimalText v.toNat) = none :=
      lookupRegister_eq_none (by simp [upper, upperChar])
    have hliteral : readLiteral ('#' :: decimalText v.toNat) = some (v.toNat : Int) :=
      readSigned_decimalText (by omega)
    simp [parseOperand, operandText, hnone, hliteral, asAsmOperand]
  | mem m =>
    rw [operandText, memRefText_eq, parseOperand_bracket (insideText_plain m),
      parseBracketInside_insideText]
    rfl

end Sys2Proof.Machine
end

section
/-! PROOFS, family text of an instruction (48_assembler.md R163 to R178, 49_disassembler.md R195,
R196). The listing text is one line of source that defines no label, splits into its mnemonic and
operand tokens, parses to an instruction without labels, and so assembles to its encoding. -/

namespace Sys2Proof.Machine

open Sys2Proof Sys2Proof.Claims

/-! ## Lists cut at a separator and trimmed (R163, R165) -/

theorem splitAt_eq_singleton {sep : Char} {t : Text} (h : ∀ c ∈ t, c ≠ sep) :
    splitAt sep t = [t] := by
  induction t with
  | nil => rfl
  | cons c t ih =>
    obtain ⟨hc, ht⟩ := List.forall_mem_cons.mp h
    simp [splitAt, hc, ih ht]

theorem splitAt_append_cons {sep : Char} {p : Text} (h : ∀ c ∈ p, c ≠ sep) (t : Text) :
    splitAt sep (p ++ sep :: t) = p :: splitAt sep t := by
  induction p with
  | nil => simp [splitAt]
  | cons c p ih =>
    obtain ⟨hc, hp⟩ := List.forall_mem_cons.mp h
    simp [splitAt, hc, ih hp]

theorem trim_eq_self {t : Text} (hhead : ∀ c ∈ t.head?, isBlank c = false)
    (hlast : ∀ c ∈ t.getLast?, isBlank c = false) : trim t = t := by
  have hkeep {u : Text} (hu : ∀ c ∈ u.head?, isBlank c = false) : u.dropWhile isBlank = u := by
    cases u with
    | nil => rfl
    | cons c u => simp [hu c rfl]
  rw [trim, hkeep hhead, hkeep (by simpa using hlast), List.reverse_reverse]

theorem trim_of_no_blank {t : Text} (h : ∀ c ∈ t, isBlank c = false) : trim t = t :=
  trim_eq_self (fun c hc => h c (List.mem_of_mem_head? hc))
    (fun c hc => h c (List.mem_of_mem_getLast? hc))

theorem trim_cons_space (t : Text) : trim (' ' :: t) = trim t := rfl

/-! ## Tokens of the listing text (R195) -/

/-- A token of the listing text: not empty, and of plain characters. -/
structure PlainToken (t : Text) : Prop where
  ne_nil : t ≠ []
  plain : ∀ c ∈ t, isPlain c = true

/-- Operand tokens with commas between them. -/
def commaText : List Text → Text
  | [] => []
  | p :: ps => p ++ (ps.map (fun q => ',' :: q)).flatten

theorem joinOperands_cons (p : Text) (ps : List Text) :
    joinOperands (p :: ps) = ' ' :: commaText (p :: ps) := by
  cases ps <;> simp [joinOperands, commaText]

theorem commaText_cons_cons (p q : Text) (ps : List Text) :
    commaText (p :: q :: ps) = p ++ ',' :: commaText (q :: ps) := rfl

theorem commaText_chars {ts : List Text} (h : ∀ t ∈ ts, PlainToken t) :
    ∀ c ∈ commaText ts, isPlain c = true ∨ c = ',' := by
  induction ts with
  | nil => simp [commaText]
  | cons p ps ih =>
    obtain ⟨hp, hps⟩ := List.forall_mem_cons.mp h
    cases ps with
    | nil => simpa [commaText] using fun c hc => .inl (hp.plain c hc)
    | cons q ps =>
      rw [commaText_cons_cons, List.forall_mem_append, List.forall_mem_cons]
      exact ⟨fun c hc => .inl (hp.plain c hc), .inr rfl, ih hps⟩

theorem splitAt_commaText {p : Text} {ps : List Text} (h : ∀ t ∈ p :: ps, PlainToken t) :
    splitAt ',' (commaText (p :: ps)) = p :: ps := by
  have hcomma {t : Text} (ht : PlainToken t) : ∀ c ∈ t, c ≠ ',' := fun c hc => by
    obtain ⟨-, -, -, hc, -⟩ := isPlain_iff.mp (ht.plain c hc)
    exact hc
  induction ps generalizing p with
  | nil =>
    rw [commaText, List.map_nil, List.flatten_nil, List.append_nil]
    exact splitAt_eq_singleton (hcomma (h p List.mem_cons_self))
  | cons q ps ih =>
    obtain ⟨hp, hps⟩ := List.forall_mem_cons.mp h
    rw [commaText_cons_cons, splitAt_append_cons (hcomma hp), ih hps]

theorem commaText_no_blank {ts : List Text} (h : ∀ t ∈ ts, PlainToken t) :
    ∀ c ∈ commaText ts, isBlank c = false := by
  intro c hc
  obtain hplain | rfl := commaText_chars h c hc
  · exact not_isBlank_of_plain hplain
  · rfl

theorem commaText_ne_nil {p : Text} {ps : List Text} (hp : PlainToken p) :
    commaText (p :: ps) ≠ [] := by
  simp [commaText, hp.ne_nil]

theorem commaText_head {ts : List Text} (h : ∀ t ∈ ts, PlainToken t) :
    (commaText ts).head? ≠ some ':' := by
  cases ts with
  | nil => nofun
  | cons p ps =>
    have hp := h p List.mem_cons_self
    intro hcolon
    rw [commaText, List.head?_append_of_ne_nil _ hp.ne_nil] at hcolon
    exact absurd (hp.plain ':' (List.mem_of_mem_head? hcolon)) (by decide)

/-! ## The operands of a line -/

section
variable {ts : List Text} (h : ∀ t ∈ ts, PlainToken t)
include h

theorem trim_joinOperands : trim (joinOperands ts) = commaText ts := by
  cases ts with
  | nil => rfl
  | cons p ps =>
    rw [joinOperands_cons, trim_cons_space]
    exact trim_of_no_blank (commaText_no_blank h)

theorem dropWhile_blank_joinOperands : (joinOperands ts).dropWhile isBlank = commaText ts := by
  cases ts with
  | nil => rfl
  | cons p ps =>
    rw [joinOperands_cons, List.dropWhile_cons_of_pos (by decide)]
    have hno := commaText_no_blank h
    cases hc : commaText (p :: ps) with
    | nil => rfl
    | cons c cs => simp [hno c (hc ▸ List.mem_cons_self)]

theorem joinOperands_chars : ∀ c ∈ joinOperands ts, c ≠ '\n' ∧ c ≠ ';' := by
  cases ts with
  | nil => nofun
  | cons p ps =>
    rw [joinOperands_cons, List.forall_mem_cons]
    refine ⟨by decide, fun c hc => ?_⟩
    obtain hplain | rfl := commaText_chars h c hc
    · obtain ⟨-, hline, hcomment, -, -⟩ := isPlain_iff.mp hplain
      exact ⟨hline, hcomment⟩
    · decide

end

/-- The operands of a line begin with a space. -/
theorem takeWhile_joinOperands {f : Char → Bool} (hf : f ' ' = false) (ts : List Text) :
    (joinOperands ts).takeWhile f = [] ∧ (joinOperands ts).dropWhile f = joinOperands ts := by
  cases ts with
  | nil => exact ⟨rfl, rfl⟩
  | cons p ps => simp [joinOperands_cons, hf]

/-! ## The whole line -/

/-- R164: an identifier up to what cannot continue it. -/
theorem leadingIdent_append {mn tail : Text} (hmn : isIdentifier mn = true)
    (htake : tail.takeWhile isIdentChar = []) (hdrop : tail.dropWhile isIdentChar = tail) :
    leadingIdent (mn ++ tail) = (mn, tail) := by
  cases mn with
  | nil => exact absurd hmn (by decide)
  | cons c cs =>
    obtain ⟨hstart, hcs⟩ := Bool.and_eq_true_iff.mp hmn
    have hcs := List.all_eq_true.mp hcs
    simp [leadingIdent, hstart, List.takeWhile_append_of_pos hcs, List.dropWhile_append_of_pos hcs,
      htake, hdrop]

/-- A mnemonic and operand tokens as the listing writes them. -/
structure ListingLine (mn : Text) (ts : List Text) : Prop where
  mnemonic : isIdentifier mn = true
  mnemonic_plain : ∀ c ∈ mn, isPlain c = true
  operands : ∀ t ∈ ts, PlainToken t

section
variable {mn : Text} {ts : List Text} (h : ListingLine mn ts)
include h

theorem ListingLine.mnemonic_ne_nil : mn ≠ [] := by
  rintro rfl
  exact absurd h.mnemonic (by decide)

/-- R165: the line splits into its mnemonic and its operand tokens. -/
theorem ListingLine.tokens_eq : tokens (mn ++ joinOperands ts) = (mn, ts) := by
  have hmn : ∀ c ∈ mn, (!isBlank c) = true := fun c hc => by
    rw [not_isBlank_of_plain (h.mnemonic_plain c hc)]
    rfl
  obtain ⟨htake, hdrop⟩ := takeWhile_joinOperands (f := fun c => !isBlank c) rfl ts
  rw [tokens, List.takeWhile_append_of_pos hmn, List.dropWhile_append_of_pos hmn, htake, hdrop,
    trim_joinOperands h.operands, List.append_nil]
  cases ts with
  | nil => rfl
  | cons p ps =>
    have htrim : (p :: ps).map trim = p :: ps :=
      (List.map_congr_left fun t ht => trim_of_no_blank fun c hc =>
        not_isBlank_of_plain ((h.operands t ht).plain c hc)).trans (List.map_id' _)
    rw [if_neg (commaText_ne_nil (h.operands p List.mem_cons_self)), splitAt_commaText h.operands,
      htrim]

/-- R164: what follows the mnemonic is no colon, so the line defines no label. -/
theorem ListingLine.labelDefinition_eq : labelDefinition (mn ++ joinOperands ts) = none := by
  obtain ⟨htake, hdrop⟩ := takeWhile_joinOperands (f := isIdentChar) (by decide) ts
  have hhead := commaText_head h.operands
  rw [labelDefinition, leadingIdent_append h.mnemonic htake hdrop]
  simp only [h.mnemonic_ne_nil, if_false, dropWhile_blank_joinOperands h.operands]
  split
  next hcolon => simp [hcolon] at hhead
  next => rfl

theorem ListingLine.trim_eq : trim (mn ++ joinOperands ts) = mn ++ joinOperands ts := by
  have hmn : ∀ c ∈ mn, isBlank c = false := fun c hc => not_isBlank_of_plain (h.mnemonic_plain c hc)
  apply trim_eq_self
  · rw [List.head?_append_of_ne_nil _ h.mnemonic_ne_nil]
    exact fun c hc => hmn c (List.mem_of_mem_head? hc)
  · cases ts with
    | nil => simpa [joinOperands] using fun c hc => hmn c (List.mem_of_mem_getLast? hc)
    | cons p ps =>
      have hne := commaText_ne_nil (ps := ps) (h.operands p List.mem_cons_self)
      rw [joinOperands_cons, List.append_cons, List.getLast?_append_of_ne_nil _ hne]
      exact fun c hc => commaText_no_blank h.operands c (List.mem_of_mem_getLast? hc)

/-- R163: the text is one line, which holds no comment and is not blank. -/
theorem ListingLine.sourceLines_eq :
    sourceLines (mn ++ joinOperands ts) = [(1, mn ++ joinOperands ts)] := by
  have hchars : ∀ c ∈ mn ++ joinOperands ts, c ≠ '\n' ∧ c ≠ ';' := by
    refine List.forall_mem_append.mpr ⟨fun c hc => ?_, joinOperands_chars h.operands⟩
    obtain ⟨-, hline, hcomment, -, -⟩ := isPlain_iff.mp (h.mnemonic_plain c hc)
    exact ⟨hline, hcomment⟩
  have hclean : cleanLine (mn ++ joinOperands ts) = mn ++ joinOperands ts := by
    rw [cleanLine, List.takeWhile_eq_self_iff.mpr (by simpa using fun c hc => (hchars c hc).2),
      h.trim_eq]
  have hne : mn ++ joinOperands ts ≠ [] := by simp [h.mnemonic_ne_nil]
  rw [sourceLines, splitAt_eq_singleton fun c hc => (hchars c hc).1]
  simp [dropCarriageReturns, numberLines, hclean, hne]

end

/-! ## The instruction of a line -/

theorem atToken_ok {α : Type} (token : Text) (a : α) : atToken token (.ok a) = .ok a := rfl

theorem lookupMnemonic_mnemonicText (m : Mnemonic) : lookupMnemonic (mnemonicText m) = some m := by
  rcases m with o | o | o | o | o <;> cases o <;> decide

theorem mnemonicText_identifier (m : Mnemonic) :
    isIdentifier (mnemonicText m) = true ∧ (mnemonicText m).all isPlain = true := by
  rcases m with o | o | o | o | o <;> cases o <;> decide

theorem parseCount_decimalText :
    ∀ count : Count, parseCount (decimalText count.val) = .ok count := by decide

theorem parseOperand_hexAddrText (a : Addr) :
    parseOperand Config.machine (hexAddrText a) = .ok (.ref (.value (a.toNat : Int))) := by
  have hnone : lookupRegister Config.machine (hexAddrText a) = none :=
    lookupRegister_eq_none (by simp [hexAddrText, upper, upperChar])
  simp [parseOperand, hnone, readLiteral_hexAddrText]

/-- R173: what the destination check of the Encoder says of an operand read back. -/
theorem checkAsmDest_asAsmOperand {writes : Bool} {p : Operand}
    (h : (!writes || p.writable) = true) : checkAsmDest writes (asAsmOperand p) = .ok () := by
  have himm : isImmediate (asAsmOperand p) = !p.writable := by cases p <;> rfl
  rw [checkAsmDest, himm]
  exact if_neg (by revert h; cases writes <;> cases p.writable <;> decide)

@[simp] theorem operandLabels_asAsmOperand (p : Operand) :
    operandLabels (asAsmOperand p) = [] := by cases p <;> rfl

/-- R169, R178: an operand read back is linked to the operand. -/
@[simp] theorem resolveOperand_asAsmOperand (address : Text → Nat) (p : Operand) :
    resolveOperand address (asAsmOperand p) = p := by
  cases p with
  | reg r | mem m => rfl
  | imm v => simp [asAsmOperand, resolveOperand, refValue]

/-- A parsed instruction without labels that stands for `i`. -/
structure Stands (a : AsmInstr) (i : Instr) : Prop where
  labels : instrLabels a = []
  resolves : ∀ address, resolveInstr address a = i

/-- R165 to R173: the tokens of a canonical instruction's text parse to it. -/
theorem exists_parseInstr {i : Instr} (hwf : i.wellFormed = true) :
    ∃ a, parseInstr Config.machine (mnemonicText i.mnemonic) (operandTexts Config.machine i) =
      .ok a ∧ Stands a i := by
  have hm := lookupMnemonic_mnemonicText i.mnemonic
  cases inFormat i with
  | z o =>
    have htexts : operandTexts Config.machine (instrZ o) = [] := by cases o <;> rfl
    rw [instrZ_mnemonic] at hm ⊢
    exact ⟨.z o, by simp only [parseInstr, hm, htexts], rfl, fun _ => rfl⟩
  | j o target =>
    have htexts : operandTexts Config.machine (instrJ target o) = [hexAddrText target] := by
      cases o <;> rfl
    rw [instrJ_mnemonic] at hm ⊢
    refine ⟨.j o (.value target.toNat), ?_, rfl, fun address => ?_⟩
    · simp only [parseInstr, hm, htexts, parseOperand_hexAddrText, jumpTarget, atToken_ok,
        except_ok_bind]
      rfl
    · simp [resolveInstr, refValue]
  | u o p =>
    have htexts : operandTexts Config.machine (instrU p o) = [operandText Config.machine p] := by
      cases o <;> rfl
    rw [instrU_wellFormed] at hwf
    rw [instrU_mnemonic] at hm ⊢
    refine ⟨.u o (asAsmOperand p), ?_, operandLabels_asAsmOperand p, fun address => ?_⟩
    · simp only [parseInstr, hm, htexts, operandTextParsesBack p, checkAsmDest_asAsmOperand hwf,
        atToken_ok, except_ok_bind]
      rfl
    · simp [resolveInstr]
  | us o p count =>
    have htexts : operandTexts Config.machine (instrUS p count o) =
        [operandText Config.machine p, decimalText count.val] := by cases o <;> rfl
    rw [instrUS_wellFormed] at hwf
    rw [instrUS_mnemonic] at hm ⊢
    refine ⟨.us o (asAsmOperand p) count, ?_, operandLabels_asAsmOperand p, fun address => ?_⟩
    · simp only [parseInstr, hm, htexts, operandTextParsesBack p, parseCount_decimalText,
        checkAsmDest_asAsmOperand (writes := true) hwf, atToken_ok, except_ok_bind]
      rfl
    · simp [resolveInstr]
  | b o p q =>
    have htexts : operandTexts Config.machine (instrB p q o) =
        [operandText Config.machine p, operandText Config.machine q] := by cases o <;> rfl
    rw [instrB_wellFormed] at hwf
    rw [instrB_mnemonic] at hm ⊢
    refine ⟨.b o (asAsmOperand p) (asAsmOperand q), ?_, ?_, fun address => ?_⟩
    · simp only [parseInstr, hm, htexts, operandTextParsesBack p, operandTextParsesBack q,
        checkAsmDest_asAsmOperand hwf, atToken_ok, except_ok_bind]
      rfl
    · simp [instrLabels]
    · simp [resolveInstr]

/-! ## The tokens are plain -/

theorem plainToken_operandText (p : Operand) : PlainToken (operandText Config.machine p) := by
  cases p with
  | reg r =>
    refine ⟨?_, List.all_eq_true.mp (regName_plain r)⟩
    revert r
    decide
  | imm v =>
    have hv := v.isLt
    exact ⟨nofun, List.forall_mem_cons.mpr ⟨by decide, decimalText_plain (by omega)⟩⟩
  | mem m =>
    rw [operandText, memRefText_eq]
    refine ⟨nofun, List.forall_mem_cons.mpr ⟨by decide, ?_⟩⟩
    exact List.forall_mem_append.mpr
      ⟨insideText_plain m, List.forall_mem_singleton.mpr (by decide)⟩

theorem plainToken_decimalText {n : Nat} (hn : n < 1000) : PlainToken (decimalText n) := by
  refine ⟨?_, decimalText_plain hn⟩
  obtain ⟨ds, htext, hne, -⟩ := exists_decimal_digits hn
  simpa [htext] using hne

theorem plainToken_operandTexts (i : Instr) :
    ∀ t ∈ operandTexts Config.machine i, PlainToken t := by
  have hop := plainToken_operandText
  cases i with
  | hlt | ret => nofun
  | mov p q | add p q | sub p q | cmp p q | and p q | or p q | xor p q =>
    simp [operandTexts, hop p, hop q]
  | inc p | dec p | not p | rnd p | push p | pop p => simp [operandTexts, hop p]
  | shl p count | shr p count =>
    simp [operandTexts, hop p, plainToken_decimalText (n := count.val) (by omega)]
  | jmp target | jz target | jnz target | call target =>
    have htarget : PlainToken (hexAddrText target) := ⟨nofun, hexAddrText_plain target⟩
    simp [operandTexts, htarget]

theorem listingLine_instr (i : Instr) :
    ListingLine (mnemonicText i.mnemonic) (operandTexts Config.machine i) := by
  obtain ⟨hident, hplain⟩ := mnemonicText_identifier i.mnemonic
  exact ⟨hident, List.all_eq_true.mp hplain, plainToken_operandTexts i⟩

/-! ## The program of one line (R176, R178) -/

theorem instr_length_le (i : Instr) : i.length ≤ 8 := by
  cases inFormat i with
  | z o => cases o <;> decide
  | j o target => rw [instrJ_length]; decide
  | u o p => rw [instrU_length]; exact (lengthU_bounds p).2.trans (by decide)
  | us o p count => rw [instrUS_length]; exact (lengthUS_bounds p).2.trans (by decide)
  | b o p q => rw [instrB_length]; exact (lengthB_bounds p q).2

/-- What Pass 1 builds of one line that defines no label and holds the instruction `a`. -/
def oneLinePass (a : AsmInstr) : PassOne where
  pc := asmLength a
  symtab := []
  items := [{ line := 1, instr := a, addr := 0 }]
  lastLine := 1

theorem ListingLine.passOne_eq {c : Config} {mn : Text} {ts : List Text} {a : AsmInstr}
    (h : ListingLine mn ts) (hparse : parseInstr c mn ts = .ok a) (hsize : asmLength a ≤ memSize) :
    passOne c 0 (mn ++ joinOperands ts) = .ok (oneLinePass a) := by
  have hread : passOneLine c 1 (mn ++ joinOperands ts) (passOneStart 0) = .ok (oneLinePass a) := by
    simp [passOneLine, defineLabel, h.labelDefinition_eq, h.mnemonic_ne_nil, placeLine,
      h.tokens_eq, hparse, passOneStart, oneLinePass]
  have hlast : ¬ (oneLinePass a).pc > memSize := Nat.not_lt.mpr hsize
  simp only [passOne, h.sourceLines_eq, passOneLines, hread, except_ok_bind, if_neg hlast]
  rfl

theorem passTwo_of_one_line {c : Config} {a : AsmInstr} {i : Instr} (h : Stands a i) :
    passTwo c (oneLinePass a).symtab (oneLinePass a).items = .ok (encodeWith c.opcode i) := by
  simp [passTwo, oneLinePass, emitItem, h.labels, h.resolves, pure, Except.pure]

/-- Settles O60: the text is one line, its tokens parse to the instruction, and the program of that
line is its encoding. -/
theorem instructionTextAssemblesBack : Obligations.InstructionTextAssemblesBack := by
  unfold Obligations.InstructionTextAssemblesBack
  intro i hwf
  obtain ⟨a, hparse, hstands⟩ := exists_parseInstr hwf
  have hsize : asmLength a ≤ memSize := by
    rw [asmLength, hstands.resolves]
    exact (instr_length_le i).trans (by decide)
  rw [assemble, instrText, (listingLine_instr i).passOne_eq hparse hsize, except_ok_bind,
    passTwo_of_one_line hstands]
  rfl

end Sys2Proof.Machine
end
